-- ==== Sys2Proof/Word.lean ====
section
/-! DEFINITION. The word types of the machine: what the spec treats as bits (`00_scope.md` section 6.1). -/

namespace Sys2Proof

/-- One byte: a memory cell, a general register, a timer (R10, R16, R17, R21). -/
abbrev Byte := BitVec 8

/-- A 16-bit word: an instruction word, `pc`, `I` (R12, R13, R60). -/
abbrev Word := BitVec 16

/-- A 4-bit field of an instruction word: `group`, or `n` (R61). -/
abbrev Nibble := BitVec 4

/-- A 12-bit address literal `nnn`, and an entry of the call stack (R14, R61). -/
abbrev Addr12 := BitVec 12

/-- The name of a general register, V0 to VF: every value of the 4-bit fields `x` and `y` names one (R10). -/
abbrev Reg := Fin 16

/-- The flag register VF, an ordinary register in storage (R11). -/
abbrev VF : Reg := 15

end Sys2Proof
end

