-- ==== Sys2Proof/Syntax.lean ====
section
/-! DEFINITION. The 35 instructions, in the order of spec/opcode_table.json (R4, R64). A constructor carries every bit of its word
that does not select it, the ignored ones too (R65, R66, R72; log 3). -/

namespace Sys2Proof

/-- One constructor per row of the opcode table. `x`, `y` are register names, `kk` and `nnn` literals, `n` a 4-bit literal (R61, R63). -/
inductive Instr where
  /-- Clear, `0?E0` (R140); `x` is ignored (R65). -/
  | clear (x : Nibble)
  /-- Return, `0?EE` (R91); `x` is ignored (R65). -/
  | ret (x : Nibble)
  /-- JumpToMachineCode, `0nnn` with `kk` neither E0 nor EE (R90); `nnn` is not used. -/
  | jumpToMachineCode (nnn : Addr12)
  /-- Jump, `1nnn` (R92). -/
  | jump (nnn : Addr12)
  /-- Call, `2nnn` (R93). -/
  | call (nnn : Addr12)
  /-- SkipEqualLiteral, `3xkk` (R100). -/
  | skipEqualLiteral (x : Reg) (kk : Byte)
  /-- SkipNotEqualLiteral, `4xkk` (R101). -/
  | skipNotEqualLiteral (x : Reg) (kk : Byte)
  /-- SkipEqualRegister, `5xy?` (R102); `n` is ignored (R66). -/
  | skipEqualRegister (x y : Reg) (n : Nibble)
  /-- RegisterSetLiteral, `6xkk` (R110). -/
  | registerSetLiteral (x : Reg) (kk : Byte)
  /-- RegisterAddAssign, `7xkk` (R111). -/
  | registerAddAssign (x : Reg) (kk : Byte)
  /-- RegisterSetRegister, `8xy0` (R112). -/
  | registerSetRegister (x y : Reg)
  /-- BitwiseOr, `8xy1` (R113). -/
  | bitwiseOr (x y : Reg)
  /-- BitwiseAnd, `8xy2` (R114). -/
  | bitwiseAnd (x y : Reg)
  /-- BitwiseXor, `8xy3` (R115). -/
  | bitwiseXor (x y : Reg)
  /-- RegisterSetRegisterAdd, `8xy4` (R116). -/
  | registerSetRegisterAdd (x y : Reg)
  /-- RegisterSetRegisterSub, `8xy5` (R117). -/
  | registerSetRegisterSub (x y : Reg)
  /-- RegisterSetRegisterShr, `8xy6` (R118); `y` is decoded and not used. -/
  | registerSetRegisterShr (x y : Reg)
  /-- RegisterSetRegisterSubn, `8xy7` (R119). -/
  | registerSetRegisterSubn (x y : Reg)
  /-- RegisterSetRegisterShl, `8xyE` (R120); `y` is decoded and not used. -/
  | registerSetRegisterShl (x y : Reg)
  /-- SkipNotEqualRegister, `9xy?` (R103); `n` is ignored (R66). -/
  | skipNotEqualRegister (x y : Reg) (n : Nibble)
  /-- SetIndex, `Annn` (R130). -/
  | setIndex (nnn : Addr12)
  /-- JumpTo, `Bnnn` (R94). -/
  | jumpTo (nnn : Addr12)
  /-- RandBitwiseAnd, `Cxkk` (R121). -/
  | randBitwiseAnd (x : Reg) (kk : Byte)
  /-- DrawSprite, `Dxyn` (R141); `n` is the number of rows. -/
  | drawSprite (x y : Reg) (n : Nibble)
  /-- SkipNextKeyPressed, `Ex9E` (R104). -/
  | skipNextKeyPressed (x : Reg)
  /-- SkipNextKeyNotPressed, `ExA1` (R105). -/
  | skipNextKeyNotPressed (x : Reg)
  /-- SetDelayTimerValue, `Fx07` (R150): the register gets the delay timer. -/
  | setDelayTimerValue (x : Reg)
  /-- KeyPressWait, `Fx0A` (R151). -/
  | keyPressWait (x : Reg)
  /-- SetDelayTimerRegister, `Fx15` (R152): the delay timer gets the register. -/
  | setDelayTimerRegister (x : Reg)
  /-- SetSoundTimerRegister, `Fx18` (R153): the sound timer gets the register. -/
  | setSoundTimerRegister (x : Reg)
  /-- IndexAddAssignRegister, `Fx1E` (R131). -/
  | indexAddAssignRegister (x : Reg)
  /-- SetIndexToDigitSprite, `Fx29` (R132). -/
  | setIndexToDigitSprite (x : Reg)
  /-- StoreBCDAtIndex, `Fx33` (R133). -/
  | storeBCDAtIndex (x : Reg)
  /-- StoreRegistersAtIndex, `Fx55` (R134); `x` is the index of the last register. -/
  | storeRegistersAtIndex (x : Reg)
  /-- ReadRegistersAtIndex, `Fx65` (R135); `x` is the index of the last register. -/
  | readRegistersAtIndex (x : Reg)
  deriving DecidableEq, Repr

end Sys2Proof
end

