-- ==== Sys2Proof/WellFormed.lean ====
section
/-! DEFINITION. Which terms of `Instr` are instructions. The types already bound every register name and literal (R10, R63); what is left
to check is the carve-out of group 0: a JumpToMachineCode whose low byte is E0 or EE would be Clear or Return (R65). -/

namespace Sys2Proof

/-- The low byte of a 12-bit literal: the field `kk` of the word it stands in (R61). -/
def lowByte (nnn : Addr12) : Byte := nnn.extractLsb' 0 8

/-- The instruction is one the opcode table has a word for (R65, R70). -/
def WellFormed : Instr → Bool
  | .clear _ => true
  | .ret _ => true
  | .jumpToMachineCode nnn => lowByte nnn != 0xE0 && lowByte nnn != 0xEE
  | .jump _ => true
  | .call _ => true
  | .skipEqualLiteral _ _ => true
  | .skipNotEqualLiteral _ _ => true
  | .skipEqualRegister _ _ _ => true
  | .registerSetLiteral _ _ => true
  | .registerAddAssign _ _ => true
  | .registerSetRegister _ _ => true
  | .bitwiseOr _ _ => true
  | .bitwiseAnd _ _ => true
  | .bitwiseXor _ _ => true
  | .registerSetRegisterAdd _ _ => true
  | .registerSetRegisterSub _ _ => true
  | .registerSetRegisterShr _ _ => true
  | .registerSetRegisterSubn _ _ => true
  | .registerSetRegisterShl _ _ => true
  | .skipNotEqualRegister _ _ _ => true
  | .setIndex _ => true
  | .jumpTo _ => true
  | .randBitwiseAnd _ _ => true
  | .drawSprite _ _ _ => true
  | .skipNextKeyPressed _ => true
  | .skipNextKeyNotPressed _ => true
  | .setDelayTimerValue _ => true
  | .keyPressWait _ => true
  | .setDelayTimerRegister _ => true
  | .setSoundTimerRegister _ => true
  | .indexAddAssignRegister _ => true
  | .setIndexToDigitSprite _ => true
  | .storeBCDAtIndex _ => true
  | .storeRegistersAtIndex _ => true
  | .readRegistersAtIndex _ => true

end Sys2Proof
end

