-- ==== Sys2Proof/Decode.lean ====
section
/-! DEFINITION. Decoding and encoding (30_encoding.md). The opcode map is data, one row per instruction in match priority order (R75), and
decoding is a pure, total function of the word (R61, R64, R71). After it, the encoder, from the same tables. -/

namespace Sys2Proof

/-- The six overlapping fields of a word (R61). -/
structure Fields where
  group : Nibble
  nnn : Addr12
  x : Nibble
  y : Nibble
  n : Nibble
  kk : Byte
  deriving DecidableEq, Repr

/-- The field extraction of R61: group 15-12, nnn 11-0, x 11-8, y 7-4, n 3-0, kk 7-0. -/
def fieldsOf (w : Word) : Fields where
  group := w.extractLsb' 12 4
  nnn := w.extractLsb' 0 12
  x := w.extractLsb' 8 4
  y := w.extractLsb' 4 4
  n := w.extractLsb' 0 4
  kk := w.extractLsb' 0 8

/-- The register a 4-bit field names: every value is a legal register (R10, R63). -/
def regOf (f : Nibble) : Reg := f.toFin

/-- The 4-bit field that names a register. -/
def regField (r : Reg) : Nibble := BitVec.ofFin r

/-- The sub-discriminant of a row: none, the field `n` (group 8) or the field `kk` (groups 0, E, F) (R64). -/
inductive Selector where
  | any
  | onN (v : Nibble)
  | onKk (v : Byte)
  deriving DecidableEq, Repr

/-- A row of the opcode map: what selects it, and the instruction its fields make. -/
structure Row where
  group : Nibble
  selector : Selector
  make : Fields → Instr

/-- The fields `f` select the row `r` (R64). -/
def Row.selects (r : Row) (f : Fields) : Bool :=
  f.group == r.group &&
    match r.selector with
    | .any => true
    | .onN v => f.n == v
    | .onKk v => f.kk == v

/-- Group 0: dispatch on `kk` alone, JumpToMachineCode the catch-all (R65). -/
def rowsGroup0 : List Row :=
  [ ⟨0x0, .onKk 0xE0, fun f => .clear f.x⟩,
    ⟨0x0, .onKk 0xEE, fun f => .ret f.x⟩,
    ⟨0x0, .any, fun f => .jumpToMachineCode f.nnn⟩ ]

/-- Groups 1 to 7, by group alone; `n` is ignored in group 5 (R64, R66). -/
def rowsGroups1to7 : List Row :=
  [ ⟨0x1, .any, fun f => .jump f.nnn⟩,
    ⟨0x2, .any, fun f => .call f.nnn⟩,
    ⟨0x3, .any, fun f => .skipEqualLiteral (regOf f.x) f.kk⟩,
    ⟨0x4, .any, fun f => .skipNotEqualLiteral (regOf f.x) f.kk⟩,
    ⟨0x5, .any, fun f => .skipEqualRegister (regOf f.x) (regOf f.y) f.n⟩,
    ⟨0x6, .any, fun f => .registerSetLiteral (regOf f.x) f.kk⟩,
    ⟨0x7, .any, fun f => .registerAddAssign (regOf f.x) f.kk⟩ ]

/-- Group 8: dispatch on `n` (R67). -/
def rowsGroup8 : List Row :=
  [ ⟨0x8, .onN 0x0, fun f => .registerSetRegister (regOf f.x) (regOf f.y)⟩,
    ⟨0x8, .onN 0x1, fun f => .bitwiseOr (regOf f.x) (regOf f.y)⟩,
    ⟨0x8, .onN 0x2, fun f => .bitwiseAnd (regOf f.x) (regOf f.y)⟩,
    ⟨0x8, .onN 0x3, fun f => .bitwiseXor (regOf f.x) (regOf f.y)⟩,
    ⟨0x8, .onN 0x4, fun f => .registerSetRegisterAdd (regOf f.x) (regOf f.y)⟩,
    ⟨0x8, .onN 0x5, fun f => .registerSetRegisterSub (regOf f.x) (regOf f.y)⟩,
    ⟨0x8, .onN 0x6, fun f => .registerSetRegisterShr (regOf f.x) (regOf f.y)⟩,
    ⟨0x8, .onN 0x7, fun f => .registerSetRegisterSubn (regOf f.x) (regOf f.y)⟩,
    ⟨0x8, .onN 0xE, fun f => .registerSetRegisterShl (regOf f.x) (regOf f.y)⟩ ]

/-- Groups 9 to D, by group alone; `n` is ignored in group 9 (R64, R66). -/
def rowsGroups9toD : List Row :=
  [ ⟨0x9, .any, fun f => .skipNotEqualRegister (regOf f.x) (regOf f.y) f.n⟩,
    ⟨0xA, .any, fun f => .setIndex f.nnn⟩,
    ⟨0xB, .any, fun f => .jumpTo f.nnn⟩,
    ⟨0xC, .any, fun f => .randBitwiseAnd (regOf f.x) f.kk⟩,
    ⟨0xD, .any, fun f => .drawSprite (regOf f.x) (regOf f.y) f.n⟩ ]

/-- Group E: dispatch on `kk` (R68). -/
def rowsGroupE : List Row :=
  [ ⟨0xE, .onKk 0x9E, fun f => .skipNextKeyPressed (regOf f.x)⟩,
    ⟨0xE, .onKk 0xA1, fun f => .skipNextKeyNotPressed (regOf f.x)⟩ ]

/-- Group F: dispatch on `kk` (R69). -/
def rowsGroupF : List Row :=
  [ ⟨0xF, .onKk 0x07, fun f => .setDelayTimerValue (regOf f.x)⟩,
    ⟨0xF, .onKk 0x0A, fun f => .keyPressWait (regOf f.x)⟩,
    ⟨0xF, .onKk 0x15, fun f => .setDelayTimerRegister (regOf f.x)⟩,
    ⟨0xF, .onKk 0x18, fun f => .setSoundTimerRegister (regOf f.x)⟩,
    ⟨0xF, .onKk 0x1E, fun f => .indexAddAssignRegister (regOf f.x)⟩,
    ⟨0xF, .onKk 0x29, fun f => .setIndexToDigitSprite (regOf f.x)⟩,
    ⟨0xF, .onKk 0x33, fun f => .storeBCDAtIndex (regOf f.x)⟩,
    ⟨0xF, .onKk 0x55, fun f => .storeRegistersAtIndex (regOf f.x)⟩,
    ⟨0xF, .onKk 0x65, fun f => .readRegistersAtIndex (regOf f.x)⟩ ]

/-- The complete opcode map, rows to be tried in this order (30_encoding.md section 3). UNVERIFIED (log 7), unsafe: its numbers are the
standard CHIP-8 table, which the spec itself supplies from general knowledge (R75, G1). -/
def opcodeTable : List Row :=
  rowsGroup0 ++ rowsGroups1to7 ++ rowsGroup8 ++ rowsGroups9toD ++ rowsGroupE ++ rowsGroupF

/-- Why bytes are no instruction. -/
inductive DecodeError where
  /-- No row matches: an unknown opcode, with the offending raw fields (R64, R70). -/
  | unknownOpcode (fields : Fields)
  /-- Fewer than the two bytes of an instruction (R60); a Step never asks this (R84). -/
  | tooFewBytes
  deriving DecidableEq, Repr

/-- The mapping from a word to an instruction or an unknown opcode (R64, R71). -/
def decodeWord (w : Word) : Except DecodeError Instr :=
  match opcodeTable.find? (fun r => r.selects (fieldsOf w)) with
  | some r => .ok (r.make (fieldsOf w))
  | none => .error (.unknownOpcode (fieldsOf w))

/-- The word two consecutive bytes make, the first byte the high one (R44). -/
def wordOfBytes (hi lo : Byte) : Word := hi ++ lo

/-- The high byte of a word, at the lower address (R44). -/
def highByte (w : Word) : Byte := w.extractLsb' 8 8

/-- The low byte of a word. -/
def lowByteOfWord (w : Word) : Byte := w.extractLsb' 0 8

/-- Decode the instruction at the head of a list of bytes, and give the bytes after it (R44, R60). -/
def decode : List Byte → Except DecodeError (Instr × List Byte)
  | hi :: lo :: rest => (decodeWord (wordOfBytes hi lo)).map (fun i => (i, rest))
  | _ => .error .tooFewBytes

/-- Format A: group, `nnn` (R62). -/
def formatA (group : Nibble) (nnn : Addr12) : Word := group ++ nnn

/-- Formats Z, XK and XF: group, nibble `x`, byte `kk` (R62). -/
def formatXK (group x : Nibble) (kk : Byte) : Word := group ++ x ++ kk

/-- Format XY: group, `x`, `y`, `n` (R62). -/
def formatXY (group x y n : Nibble) : Word := group ++ x ++ y ++ n

/-- The word of an instruction (30_encoding.md section 3). -/
def encodeWord : Instr → Word
  | .clear x => formatXK 0x0 x 0xE0
  | .ret x => formatXK 0x0 x 0xEE
  | .jumpToMachineCode nnn => formatA 0x0 nnn
  | .jump nnn => formatA 0x1 nnn
  | .call nnn => formatA 0x2 nnn
  | .skipEqualLiteral x kk => formatXK 0x3 (regField x) kk
  | .skipNotEqualLiteral x kk => formatXK 0x4 (regField x) kk
  | .skipEqualRegister x y n => formatXY 0x5 (regField x) (regField y) n
  | .registerSetLiteral x kk => formatXK 0x6 (regField x) kk
  | .registerAddAssign x kk => formatXK 0x7 (regField x) kk
  | .registerSetRegister x y => formatXY 0x8 (regField x) (regField y) 0x0
  | .bitwiseOr x y => formatXY 0x8 (regField x) (regField y) 0x1
  | .bitwiseAnd x y => formatXY 0x8 (regField x) (regField y) 0x2
  | .bitwiseXor x y => formatXY 0x8 (regField x) (regField y) 0x3
  | .registerSetRegisterAdd x y => formatXY 0x8 (regField x) (regField y) 0x4
  | .registerSetRegisterSub x y => formatXY 0x8 (regField x) (regField y) 0x5
  | .registerSetRegisterShr x y => formatXY 0x8 (regField x) (regField y) 0x6
  | .registerSetRegisterSubn x y => formatXY 0x8 (regField x) (regField y) 0x7
  | .registerSetRegisterShl x y => formatXY 0x8 (regField x) (regField y) 0xE
  | .skipNotEqualRegister x y n => formatXY 0x9 (regField x) (regField y) n
  | .setIndex nnn => formatA 0xA nnn
  | .jumpTo nnn => formatA 0xB nnn
  | .randBitwiseAnd x kk => formatXK 0xC (regField x) kk
  | .drawSprite x y n => formatXY 0xD (regField x) (regField y) n
  | .skipNextKeyPressed x => formatXK 0xE (regField x) 0x9E
  | .skipNextKeyNotPressed x => formatXK 0xE (regField x) 0xA1
  | .setDelayTimerValue x => formatXK 0xF (regField x) 0x07
  | .keyPressWait x => formatXK 0xF (regField x) 0x0A
  | .setDelayTimerRegister x => formatXK 0xF (regField x) 0x15
  | .setSoundTimerRegister x => formatXK 0xF (regField x) 0x18
  | .indexAddAssignRegister x => formatXK 0xF (regField x) 0x1E
  | .setIndexToDigitSprite x => formatXK 0xF (regField x) 0x29
  | .storeBCDAtIndex x => formatXK 0xF (regField x) 0x33
  | .storeRegistersAtIndex x => formatXK 0xF (regField x) 0x55
  | .readRegistersAtIndex x => formatXK 0xF (regField x) 0x65

/-- The bytes of an instruction as memory stores them, high byte first (R44, R60). -/
def encode (i : Instr) : List Byte := [highByte (encodeWord i), lowByteOfWord (encodeWord i)]

/-- The host's question: the instruction the decoder reads from the word whose bits are `w`, laid out as memory stores it; the bits from
`nbits` up are 0. -/
def decodeTableWord (nbits w : Nat) : Option Instr :=
  let word : Word := BitVec.ofNat 16 (w % 2 ^ nbits)
  match decode [highByte word, lowByteOfWord word] with
  | .ok (i, _) => some i
  | .error _ => none

end Sys2Proof
end

