-- ==== Sys2Proof/Machine/Flags.lean ====
section
/-! DEFINITION. The flag computations: what the six flag-writing instructions put into VF (10_state.md section 4; R122). The sixth, the
collision flag of DrawSprite, comes out of the drawing itself (`Machine/Display.lean`, R143). -/

namespace Sys2Proof.Machine

/-- A flag as the 8-bit value VF receives: 0x00 or 0x01 (R122). -/
def flagByte (b : Bool) : Byte := if b then 0x01 else 0x00

/-- Add: the exact sum exceeds 255 (R116). -/
def carryFlag (a b : Byte) : Bool := decide (255 < a.toNat + b.toNat)

/-- Subtract `a - b`: no borrow occurred, equal operands included (R117, R119; C11). -/
def noBorrowFlag (a b : Byte) : Bool := decide (b.toNat ≤ a.toNat)

/-- Shift right: the bit shifted out, bit 0 (R118). -/
def shrFlag (a : Byte) : Bool := a.getLsbD 0

/-- Shift left: the bit shifted out, bit 7 (R120). -/
def shlFlag (a : Byte) : Bool := a.getLsbD 7

end Sys2Proof.Machine
end

