-- ==== Sys2Proof/Config.lean ====
section
/-! DEFINITION. The implementation parameters of `00_scope.md` section 5, fixed values of this hardware (R3), and the one free value. -/

namespace Sys2Proof.Config

/-- `MEM_SIZE`: 4096 bytes, addresses 0x000 to 0xFFF (R40). -/
@[simp] abbrev memSize : Nat := 4096

/-- `PROG_BASE`, where the program image is loaded (R192), and `RESET_PC` (R191). -/
@[simp] abbrev progBase : Nat := 0x200

/-- `PROG_MAX`, the largest program image the host may load (R195). -/
@[simp] abbrev progMax : Nat := 3584

/-- FREE VALUE (log 1): the byte the random source presents, number by number (R121, D19).
It has no body: nothing can be proved of any value of it but that it is some byte. -/
opaque rnd : Nat → Byte

end Sys2Proof.Config
end

