-- ==== Sys2Proof/Machine/State.lean ====
section
/-! DEFINITION. The machine's state as plain data (10_state.md), the reasons a step can stop, and the state after reset. -/

namespace Sys2Proof.Machine

/-- The fault causes (R161). Code 7 is reserved and never produced, so no constructor stands for it (U18; log 4). -/
inductive FaultCause where
  /-- No fault latched (code 0). -/
  | noFault
  /-- The fetch, at `pc = 0x0FFF` (code 1, R162). -/
  | fetchBounds
  /-- A data access through `I` beyond 0x0FFF (code 2, R163). -/
  | dataBounds
  /-- Call with 16 addresses stacked (code 3, R164). -/
  | stackOverflow
  /-- Return with none stacked (code 4, R165). -/
  | stackUnderflow
  /-- A key skip with a register above 15 (code 5, R167). -/
  | keyIndexRange
  /-- Call fetched at 0x0FFE (code 6, R166). -/
  | returnAddressRange
  deriving DecidableEq, Repr

/-- The 3-bit code `fault_cause` holds (R161). -/
def FaultCause.code : FaultCause → BitVec 3
  | .noFault => 0
  | .fetchBounds => 1
  | .dataBounds => 2
  | .stackOverflow => 3
  | .stackUnderflow => 4
  | .keyIndexRange => 5
  | .returnAddressRange => 6

/-- The fault record: `fault_cause`, `fault_pc`, `fault_opcode` (R23). -/
structure FaultRecord where
  cause : FaultCause
  pc : Word
  opcode : Word
  deriving DecidableEq, Repr

/-- An event a Step emits to the host (R2). -/
inductive Event where
  /-- The sound event (R83). -/
  | beep
  /-- The report of an unknown opcode: the raw word and the current `pc` (R170). -/
  | unknownOpcode (w pc : Word)
  deriving DecidableEq, Repr

/-- Memory as a list of (address, byte) pairs: addresses rising, none listed with the byte it would read as unlisted (`Memory.wf`). -/
abbrev Memory := List Host.Cell

/-- The framebuffer: 32 rows of 64 bits (R18). DESIGN CHOICE (log 8), safe: bit `c` of a row is the pixel in column `c`. -/
abbrev Framebuffer := Vector (BitVec 64) 32

/-- All the state of the machine (10_state.md section 1, R25), then two fields of the model's own. -/
structure State where
  /-- `V[0..15]` (R10, R11). -/
  v : Vector Byte 16
  /-- The index register `I` (R12). -/
  i : Word
  /-- The program counter (R13). -/
  pc : Word
  /-- The stack pointer, 0 to 16 (R15); the values 17 to 31 of its 5 bits are unreachable and left out (U18; log 4). -/
  sp : Fin 17
  /-- The call stack `STK` (R14). -/
  stk : Vector Addr12 16
  /-- The delay timer `DT` (R16). -/
  dt : Byte
  /-- The sound timer `ST` (R17). -/
  st : Byte
  /-- The framebuffer `FB` (R18). -/
  fb : Framebuffer
  /-- The redraw flag (R19). -/
  redraw : Bool
  /-- The key flags: bit `k` is `K[k]` (R20). -/
  keys : BitVec 16
  /-- Memory `M` (R21, R40). -/
  mem : Memory
  /-- The tick counter (R22). -/
  tick : BitVec 64
  /-- The fault record (R23). -/
  fault : FaultRecord
  /-- MODEL'S OWN (log 1): the number of the random byte the next RandBitwiseAnd consumes. -/
  rndIndex : Nat
  /-- MODEL'S OWN (log 2): the events emitted so far, newest first. -/
  events : List Event
  deriving DecidableEq, Repr

/-- Reasons a step could stop the model. There is none: every fault of the spec is latched in the state and the Step answers a next state
(R168, R169), and an unknown opcode or a halted machine goes on by Steps that the spec describes (R170, R171). -/
inductive Fault where
  deriving DecidableEq, Repr

/-- Reasons the model has no meaning for what it is asked. -/
inductive Refusal where
  /-- An instruction without a meaning yet, raised by its arm of `exec`; safe. No arm raises it. -/
  | notModelled (mnemonic : String)
  /-- `H-RESET` with an image of more than 3584 bytes, raised by `hostReset`: the spec has the host refuse it (R179, R195, U8); safe. -/
  | imageTooLarge
  deriving DecidableEq, Repr

/-- The state after reset with no program image: every value is the one R26 and R191 give; memory lists nothing, so it reads as the reset
contents of R192 (log 5, log 6). The model's own fields start at 0 and empty: DESIGN CHOICE (log 1, log 2). -/
def State.reset : State where
  v := Vector.replicate 16 0
  i := 0x0000
  pc := 0x0200
  sp := 0
  stk := Vector.replicate 16 0
  dt := 0x00
  st := 0x00
  fb := Vector.replicate 32 0
  redraw := false
  keys := 0
  mem := []
  tick := 0
  fault := ⟨.noFault, 0x0000, 0x0000⟩
  rndIndex := 0
  events := []

end Sys2Proof.Machine
end

