-- ==== Sys2Proof/Machine/Ops.lean ====
section
/-! DEFINITION. The named operations over memory and registers, the end of an instruction, taking a fault, and the phases of a Step before
the instruction's own (20_memory.md, 40_step_sequence.md, 60_exceptions.md). -/

namespace Sys2Proof.Machine

/-- Glyphs 0 to 7 of the font (R193). UNVERIFIED (log 7), unsafe: the bytes are the spec's, from general knowledge (G2). -/
def fontLow : List Byte :=
  [0xF0, 0x90, 0x90, 0x90, 0xF0,  0x20, 0x60, 0x20, 0x20, 0x70,  0xF0, 0x10, 0xF0, 0x80, 0xF0,  0xF0, 0x10, 0xF0, 0x10, 0xF0] ++
  [0x90, 0x90, 0xF0, 0x10, 0x10,  0xF0, 0x80, 0xF0, 0x10, 0xF0,  0xF0, 0x80, 0xF0, 0x90, 0xF0,  0xF0, 0x10, 0x20, 0x40, 0x40]

/-- Glyphs 8 to F of the font (R193). UNVERIFIED (log 7), unsafe: as `fontLow`. -/
def fontHigh : List Byte :=
  [0xF0, 0x90, 0xF0, 0x90, 0xF0,  0xF0, 0x90, 0xF0, 0x10, 0xF0,  0xF0, 0x90, 0xF0, 0x90, 0x90,  0xE0, 0x90, 0xE0, 0x90, 0xE0] ++
  [0xF0, 0x80, 0x80, 0x80, 0xF0,  0xE0, 0x90, 0x90, 0x90, 0xE0,  0xF0, 0x80, 0xF0, 0x80, 0xF0,  0xF0, 0x80, 0xF0, 0x80, 0x80]

/-- The 80 font bytes, glyph `d` at `5 * d` (R193). -/
def font : List Byte := fontLow ++ fontHigh

/-- What an unlisted address reads as: the reset contents of memory with an empty program image, the font from 0x000 and zero after it
(R26, R192; log 5). -/
def background (a : Nat) : Byte := font.getD a 0x00

/-- The byte at address `a`. -/
def Memory.get : Memory → Nat → Byte
  | [], a => background a
  | (a', b) :: m, a => if a = a' then b else Memory.get m a

/-- Put the entry for address `a` at the head of a memory whose entries are all above `a`, unless the byte is the one `a` reads as unlisted. -/
def Memory.put (a : Nat) (b : Byte) (m : Memory) : Memory :=
  if b = background a then m else (a, b) :: m

/-- Memory with the byte at address `a` set to `b`, in canonical form. -/
def Memory.set : Memory → Nat → Byte → Memory
  | [], a, b => Memory.put a b []
  | (a', b') :: m, a, b =>
    if a < a' then Memory.put a b ((a', b') :: m)
    else if a = a' then Memory.put a b m
    else (a', b') :: Memory.set m a b

/-- The canonical form from address `lo` up: addresses strictly rising and within memory, no entry equal to what its address reads as unlisted. -/
def Memory.wfFrom : Nat → Memory → Bool
  | _, [] => true
  | lo, (a, b) :: m =>
    decide (lo ≤ a) && decide (a < Config.memSize) && decide (b ≠ background a) && Memory.wfFrom (a + 1) m

/-- Memory is in canonical form. -/
def Memory.wf (m : Memory) : Bool := Memory.wfFrom 0 m

/-- The `n` bytes from address `a` up, lowest address first. -/
def Memory.bytes (m : Memory) (a : Nat) : Nat → List Byte
  | 0 => []
  | n + 1 => Memory.get m a :: Memory.bytes m (a + 1) n

/-- Memory with the bytes of a list stored from address `a` up. -/
def Memory.setBytes (m : Memory) (a : Nat) : List Byte → Memory
  | [] => m
  | b :: bs => Memory.setBytes (Memory.set m a b) (a + 1) bs

/-- Every one of the `n` addresses from `a` up is in range: the exact sum, no wrap (R41, R43). -/
def inRange (a n : Nat) : Bool := decide (n = 0) || decide (a + n - 1 ≤ 0x0FFF)

/-- `MemRead(addr, n)` (R41); `none` is the fault DATA_BOUNDS. -/
def memRead (m : Memory) (a n : Nat) : Option (List Byte) :=
  if inRange a n then some (Memory.bytes m a n) else none

/-- `MemWrite(addr, n, v)` (R42); `none` is the fault DATA_BOUNDS, with nothing written. -/
def memWrite (m : Memory) (a : Nat) (bs : List Byte) : Option Memory :=
  if inRange a bs.length then some (Memory.setBytes m a bs) else none

/-- Read of general register `r` (R10). -/
def State.getV (s : State) (r : Reg) : Byte := s.v[r.val]

/-- Write of general register `r` (R10). -/
def State.setV (r : Reg) (b : Byte) (s : State) : State := { s with v := s.v.set r.val b }

/-- Write of the whole register file, for an instruction that loads several registers (R135). -/
def State.setRegs (v : Vector Byte 16) (s : State) : State := { s with v := v }

/-- Write of VF as a flag (R11, R122). -/
def State.setFlag (b : Bool) (s : State) : State := s.setV VF (flagByte b)

/-- Write of a result and the flag: the result first, the flag last (R87, R123). -/
def State.setResultFlag (r : Reg) (b : Byte) (flag : Bool) (s : State) : State := (s.setV r b).setFlag flag

/-- Write of the index register (R12). -/
def State.setI (a : Word) (s : State) : State := { s with i := a }

/-- Write of the program counter (R13). -/
def State.setPc (a : Word) (s : State) : State := { s with pc := a }

/-- Write of the delay timer (R16). -/
def State.setDt (b : Byte) (s : State) : State := { s with dt := b }

/-- Write of the sound timer (R17). -/
def State.setSt (b : Byte) (s : State) : State := { s with st := b }

/-- Write of memory. -/
def State.setMem (m : Memory) (s : State) : State := { s with mem := m }

/-- Write of the framebuffer together with the redraw flag, which every such write sets (R19). -/
def State.setDisplay (fb : Framebuffer) (s : State) : State := { s with fb := fb, redraw := true }

/-- The registers with the bytes of a list loaded into V0, V1, ... in order; the others keep their value (R135). -/
def loadRegs (bs : List Byte) (v : Vector Byte 16) : Vector Byte 16 :=
  Vector.ofFn fun r : Fin 16 => if h : r.val < bs.length then bs[r.val] else v[r.val]

/-- Push a return address: `STK[sp]` written, `sp` incremented (R15); `none` when 16 are stacked. -/
def pushReturn (a : Addr12) (s : State) : Option State :=
  if h : s.sp.val < 16 then
    some { s with stk := s.stk.set s.sp.val a, sp := ⟨s.sp.val + 1, by omega⟩ }
  else none

/-- Pop a return address: `sp` decremented, then `STK[sp]` read, the entry left as it is (R14, R15); `none` when none is stacked. -/
def popReturn (s : State) : Option (Addr12 × State) :=
  if h : 0 < s.sp.val then
    some (s.stk[s.sp.val - 1], { s with sp := ⟨s.sp.val - 1, by omega⟩ })
  else none

/-- `end_instr`: `pc <- pc + 2` (R86). -/
def State.endInstr (s : State) : State := s.setPc (s.pc + 2)

/-- `skip_instr(c)`: `pc <- pc + 4` when `c` holds, else `pc <- pc + 2` (R86, R106). -/
def State.skipInstr (c : Bool) (s : State) : State := s.setPc (s.pc + if c then 4 else 2)

/-- TAKING A FAULT (R168): the record is written and nothing else: `fault_pc` is the `pc` of the instruction, which `pc` keeps, and
`fault_opcode` its word. There is no return from it: only `H-RESET` clears the record (R169). -/
def raiseFault (cause : FaultCause) (opcode : Word) (s : State) : State :=
  { s with fault := ⟨cause, s.pc, opcode⟩ }

/-- The fault of an instruction: its word is `encodeWord` of it, since an instruction carries every bit of its word (log 3). -/
def faultIn (i : Instr) (cause : FaultCause) (s : State) : Host.Outcome State Fault Refusal :=
  .next (raiseFault cause (encodeWord i) s)

/-- The status output `fault`: a fault is latched (R168). -/
def State.faulted (s : State) : Bool := decide (s.fault.cause ≠ .noFault)

/-- The status output `halted`: `pc` is above the last address (R171). -/
def State.halted (s : State) : Bool := decide (0x0FFF < s.pc.toNat)

/-- Phase 1: the guard ends the Step with no state change (R81). -/
def guardStops (s : State) : Bool := s.faulted || s.halted

/-- Phase 2: the tick, modulo 2^64 (R82). -/
def phaseTick (s : State) : State := { s with tick := s.tick + 1 }

/-- A timer counts down by one and stops at 0 (R16, R17, R83). -/
def countDown (t : Byte) : Byte := if t = 0 then 0 else t - 1

/-- Phase 3: a `beep` when the sound timer is nonzero before its decrement, then both timers count down (R83). -/
def phaseTimers (s : State) : State :=
  { s with
    events := if s.st = 0 then s.events else .beep :: s.events
    dt := countDown s.dt
    st := countDown s.st }

/-- Phases 2 and 3. -/
def phases (s : State) : State := phaseTimers (phaseTick s)

/-- Phase 4a, the fetch: the word at `pc`, `pc + 1`, high byte first, at any alignment; `none` is FETCH_BOUNDS, a byte above 0x0FFF (R44, R46, R84). -/
def fetchWord (s : State) : Option Word :=
  if s.pc.toNat + 1 ≤ 0x0FFF then
    some (wordOfBytes (Memory.get s.mem s.pc.toNat) (Memory.get s.mem (s.pc.toNat + 1)))
  else none

/-- The fault of the fetch: no word was fetched, so `fault_opcode` is 0 (R162, R168). -/
def fetchFault (s : State) : State := raiseFault .fetchBounds 0x0000 s

/-- The report of an unknown opcode: the event, and nothing else changes (R85, R170). -/
def reportUnknown (w : Word) (s : State) : State :=
  { s with events := .unknownOpcode w s.pc :: s.events }

/-- The word `w` stored where the next Step fetches, high byte first (R44). At a `pc` from which no word can be fetched nothing changes (log 10). -/
def placeWord (w : Word) (s : State) : State :=
  if s.pc.toNat + 1 ≤ 0x0FFF then
    s.setMem (Memory.setBytes s.mem s.pc.toNat [highByte w, lowByteOfWord w])
  else s

end Sys2Proof.Machine
end

