-- ==== Sys2Proof/Machine/Operands.lean ====
section
/-! DEFINITION. The operand forms of the instruction set (R63, R136): a register, an 8-bit literal, a 12-bit address, the address in `I`
plus an offset, the return address, a key index. There is no other. -/

namespace Sys2Proof.Machine

/-- `zext_16(nnn)`: a 12-bit literal, or a popped stack entry, as a 16-bit address (R63). -/
def addrOf (nnn : Addr12) : Word := nnn.zeroExtend 16

/-- `zext_16(V[r])`: a register as a 16-bit number (R63, R94, R131). -/
def regAsWord (s : State) (r : Reg) : Word := (s.getV r).zeroExtend 16

/-- The base address of a data access: `I`, an exact number from which the offsets count up without wrap (R43, R136). -/
def dataBase (s : State) : Nat := s.i.toNat

/-- The return address of a Call fits the 12 bits of a stack entry; it does not only at `pc = 0x0FFE` (R93, R166). -/
def returnAddressFits (s : State) : Bool := decide (s.pc.toNat + 2 ≤ 0x0FFF)

/-- The return address of a Call as a stack entry: `(pc + 2)[11:0]` (R93). -/
def returnAddress (s : State) : Addr12 := (s.pc + 2).setWidth 12

/-- The key a register names: its whole 8-bit value; `none` above 15 (R104, R105, R167). -/
def keyIndex (s : State) (r : Reg) : Option (Fin 16) :=
  if h : (s.getV r).toNat < 16 then some ⟨(s.getV r).toNat, h⟩ else none

/-- The level of key flag `k` (R20). -/
def State.keyDown (s : State) (k : Fin 16) : Bool := s.keys.getLsbD k.val

/-- The least `k` with `K[k] = 1`: the keys are scanned in index order (R151). -/
def firstKeyDown (s : State) : Option (Fin 16) := (List.finRange 16).find? (fun k => s.keyDown k)

/-- The decimal digits hundreds, tens, units of a byte (R133). -/
def bcdDigits (b : Byte) : List Byte :=
  [BitVec.ofNat 8 (b.toNat / 100), BitVec.ofNat 8 (b.toNat / 10 % 10), BitVec.ofNat 8 (b.toNat % 10)]

/-- The registers `V[0], ..., V[x]` as a list of bytes (R134). -/
def regsUpTo (s : State) (x : Reg) : List Byte := s.v.toList.take (x.val + 1)

end Sys2Proof.Machine
end

