-- ==== Sys2Proof/Machine/ControlFlow.lean ====
section
/-! DEFINITION. The control-flow instructions (41_control_flow.md): Return, JumpToMachineCode, Jump, Call, JumpTo. None checks its target (R95). -/

namespace Sys2Proof.Machine

/-- Return (R91): STACK_UNDERFLOW on an empty stack; else pop into `pc`, with no further advance. -/
def execRet (x : Nibble) (s : State) : Host.Outcome State Fault Refusal :=
  match popReturn s with
  | none => faultIn (.ret x) .stackUnderflow s
  | some (a, s') => .next (s'.setPc (addrOf a))

/-- JumpToMachineCode (R90): a no-op that advances. -/
def execJumpToMachineCode (_nnn : Addr12) (s : State) : Host.Outcome State Fault Refusal :=
  .next s.endInstr

/-- Jump (R92). -/
def execJump (nnn : Addr12) (s : State) : Host.Outcome State Fault Refusal :=
  .next (s.setPc (addrOf nnn))

/-- Call (R93): STACK_OVERFLOW, tested first (R172); RETURN_ADDRESS_RANGE; else push `pc + 2` and jump. -/
def execCall (nnn : Addr12) (s : State) : Host.Outcome State Fault Refusal :=
  match pushReturn (returnAddress s) s with
  | none => faultIn (.call nnn) .stackOverflow s
  | some s' =>
    if returnAddressFits s then .next (s'.setPc (addrOf nnn))
    else faultIn (.call nnn) .returnAddressRange s

/-- JumpTo (R94): `V[0] + nnn`, not reduced; above 0x0FFF the machine is halted from the next Step. -/
def execJumpTo (nnn : Addr12) (s : State) : Host.Outcome State Fault Refusal :=
  .next (s.setPc (regAsWord s 0 + addrOf nnn))

end Sys2Proof.Machine
end

