-- ==== Sys2Proof/Machine/Display.lean ====
section
/-! DEFINITION. The display instructions (45_display.md) and the framebuffer operations they share. -/

namespace Sys2Proof.Machine

/-- `FB[row][col]` (R18). -/
def pixel (fb : Framebuffer) (row : Fin 32) (col : Fin 64) : Bool := fb[row.val].getLsbD col.val

/-- The framebuffer with `FB[row][col]` inverted (R143). -/
def flipPixel (fb : Framebuffer) (row : Fin 32) (col : Fin 64) : Framebuffer :=
  fb.set row.val (fb[row.val] ^^^ BitVec.twoPow 64 col.val)

/-- The framebuffer with every pixel 0 (R140). -/
def clearedFb : Framebuffer := Vector.replicate 32 0

/-- The framebuffer row a sprite's row `r` lands on, wrapped (R142). -/
def rowAt (vy : Byte) (r : Nat) : Fin 32 := ⟨(vy.toNat + r) % 32, by omega⟩

/-- The framebuffer column a sprite's column `c` lands on, wrapped (R142). -/
def colAt (vx : Byte) (c : Nat) : Fin 64 := ⟨(vx.toNat + c) % 64, by omega⟩

/-- Column `c` of a sprite row is bit `7 - c` of its byte (R142). UNVERIFIED (log 7), unsafe: the order is from general knowledge (G3). -/
def spriteBit (b : Byte) (c : Nat) : Bool := b.getLsbD (7 - c)

/-- One pixel of a sprite: where its bit is 1, the framebuffer pixel is inverted, and one that was 1 is a collision (R143). -/
def drawPixel (vx vy : Byte) (r : Nat) (b : Byte) (acc : Framebuffer × Bool) (c : Nat) : Framebuffer × Bool :=
  if spriteBit b c then
    (flipPixel acc.1 (rowAt vy r) (colAt vx c), acc.2 || pixel acc.1 (rowAt vy r) (colAt vx c))
  else acc

/-- One row of a sprite: its eight pixels (R141). -/
def drawRow (vx vy : Byte) (r : Nat) (b : Byte) (acc : Framebuffer × Bool) : Framebuffer × Bool :=
  (List.range 8).foldl (drawPixel vx vy r b) acc

/-- The rows of a sprite from row `r` on (R141). -/
def drawRows (vx vy : Byte) : Nat → List Byte → Framebuffer × Bool → Framebuffer × Bool
  | _, [], acc => acc
  | r, b :: bs, acc => drawRows vx vy (r + 1) bs (drawRow vx vy r b acc)

/-- A sprite drawn at the coordinates `vx`, `vy`: the framebuffer after it, and whether any pixel collided (R141, R143). -/
def drawSprite (vx vy : Byte) (rows : List Byte) (fb : Framebuffer) : Framebuffer × Bool :=
  drawRows vx vy 0 rows (fb, false)

/-- Clear (R140): every pixel 0, `redraw` set. `x` is ignored (R65). -/
def execClear (_x : Nibble) (s : State) : Host.Outcome State Fault Refusal :=
  .next (s.setDisplay clearedFb).endInstr

/-- DrawSprite (R141): DATA_BOUNDS when `n` is not 0 and `I + n - 1` is above 0x0FFF; the coordinates are read before VF is written (R87). -/
def execDrawSprite (x y : Reg) (n : Nibble) (s : State) : Host.Outcome State Fault Refusal :=
  match memRead s.mem (dataBase s) n.toNat with
  | none => faultIn (.drawSprite x y n) .dataBounds s
  | some rows =>
    let drawn := drawSprite (s.getV x) (s.getV y) rows s.fb
    .next ((s.setDisplay drawn.1).setFlag drawn.2).endInstr

end Sys2Proof.Machine
end

