-- ==== Sys2Proof/Machine/IndexMemory.lean ====
section
/-! DEFINITION. The index-register and memory instructions (44_index_memory.md). None of the memory instructions changes `I` (R136, D26). -/

namespace Sys2Proof.Machine

/-- SetIndex (R130). -/
def execSetIndex (nnn : Addr12) (s : State) : Host.Outcome State Fault Refusal :=
  .next (s.setI (addrOf nnn)).endInstr

/-- IndexAddAssignRegister (R131): modulo 2^16, no flag, no fault until `I` is used. -/
def execIndexAddAssignRegister (x : Reg) (s : State) : Host.Outcome State Fault Refusal :=
  .next (s.setI (s.i + regAsWord s x)).endInstr

/-- SetIndexToDigitSprite (R132): the whole register times 5. -/
def execSetIndexToDigitSprite (x : Reg) (s : State) : Host.Outcome State Fault Refusal :=
  .next (s.setI (regAsWord s x * 5)).endInstr

/-- StoreBCDAtIndex (R133): DATA_BOUNDS when `I + 2` is above 0x0FFF. -/
def execStoreBCDAtIndex (x : Reg) (s : State) : Host.Outcome State Fault Refusal :=
  match memWrite s.mem (dataBase s) (bcdDigits (s.getV x)) with
  | none => faultIn (.storeBCDAtIndex x) .dataBounds s
  | some m => .next (s.setMem m).endInstr

/-- StoreRegistersAtIndex (R134): DATA_BOUNDS when `I + x` is above 0x0FFF. -/
def execStoreRegistersAtIndex (x : Reg) (s : State) : Host.Outcome State Fault Refusal :=
  match memWrite s.mem (dataBase s) (regsUpTo s x) with
  | none => faultIn (.storeRegistersAtIndex x) .dataBounds s
  | some m => .next (s.setMem m).endInstr

/-- ReadRegistersAtIndex (R135): DATA_BOUNDS when `I + x` is above 0x0FFF; all bytes are read before any register is written. -/
def execReadRegistersAtIndex (x : Reg) (s : State) : Host.Outcome State Fault Refusal :=
  match memRead s.mem (dataBase s) (x.val + 1) with
  | none => faultIn (.readRegistersAtIndex x) .dataBounds s
  | some bs => .next (s.setRegs (loadRegs bs s.v)).endInstr

end Sys2Proof.Machine
end

