-- ==== Sys2Proof/Machine/RegisterAlu.lean ====
section
/-! DEFINITION. The register, ALU and random instructions (43_register_alu.md). All end with `end_instr` and none can fault. Operands are
read first, the result is written next and the flag last (R87, R123). -/

namespace Sys2Proof.Machine

/-- RegisterSetLiteral (R110). -/
def execRegisterSetLiteral (x : Reg) (kk : Byte) (s : State) : Host.Outcome State Fault Refusal :=
  .next (s.setV x kk).endInstr

/-- RegisterAddAssign (R111): wraps modulo 256 and writes no flag. -/
def execRegisterAddAssign (x : Reg) (kk : Byte) (s : State) : Host.Outcome State Fault Refusal :=
  .next (s.setV x (s.getV x + kk)).endInstr

/-- RegisterSetRegister (R112). -/
def execRegisterSetRegister (x y : Reg) (s : State) : Host.Outcome State Fault Refusal :=
  .next (s.setV x (s.getV y)).endInstr

/-- BitwiseOr (R113): no flag. -/
def execBitwiseOr (x y : Reg) (s : State) : Host.Outcome State Fault Refusal :=
  .next (s.setV x (s.getV x ||| s.getV y)).endInstr

/-- BitwiseAnd (R114): no flag. -/
def execBitwiseAnd (x y : Reg) (s : State) : Host.Outcome State Fault Refusal :=
  .next (s.setV x (s.getV x &&& s.getV y)).endInstr

/-- BitwiseXor (R115): no flag. -/
def execBitwiseXor (x y : Reg) (s : State) : Host.Outcome State Fault Refusal :=
  .next (s.setV x (s.getV x ^^^ s.getV y)).endInstr

/-- RegisterSetRegisterAdd (R116). -/
def execRegisterSetRegisterAdd (x y : Reg) (s : State) : Host.Outcome State Fault Refusal :=
  let a := s.getV x
  let b := s.getV y
  .next (s.setResultFlag x (a + b) (carryFlag a b)).endInstr

/-- RegisterSetRegisterSub (R117): `V[x] - V[y]`. -/
def execRegisterSetRegisterSub (x y : Reg) (s : State) : Host.Outcome State Fault Refusal :=
  let a := s.getV x
  let b := s.getV y
  .next (s.setResultFlag x (a - b) (noBorrowFlag a b)).endInstr

/-- RegisterSetRegisterShr (R118): `V[x]` in place; `y` is not used (D15). -/
def execRegisterSetRegisterShr (x _y : Reg) (s : State) : Host.Outcome State Fault Refusal :=
  let a := s.getV x
  .next (s.setResultFlag x (a >>> 1) (shrFlag a)).endInstr

/-- RegisterSetRegisterSubn (R119): `V[y] - V[x]` into `V[x]`. -/
def execRegisterSetRegisterSubn (x y : Reg) (s : State) : Host.Outcome State Fault Refusal :=
  let a := s.getV x
  let b := s.getV y
  .next (s.setResultFlag x (b - a) (noBorrowFlag b a)).endInstr

/-- RegisterSetRegisterShl (R120): `V[x]` in place; `y` is not used (D15). -/
def execRegisterSetRegisterShl (x _y : Reg) (s : State) : Host.Outcome State Fault Refusal :=
  let a := s.getV x
  .next (s.setResultFlag x (a <<< 1) (shlFlag a)).endInstr

/-- RandBitwiseAnd with the random byte `rnd` the Step is given (R121). -/
def randBitwiseAndWith (rnd : Byte) (x : Reg) (kk : Byte) (s : State) : State :=
  (s.setV x (rnd &&& kk)).endInstr

/-- The random byte of this execution, a free value, and the state in which the next execution takes another (R121, D19; log 1). -/
def drawRandom (s : State) : Byte × State := (Config.rnd s.rndIndex, { s with rndIndex := s.rndIndex + 1 })

/-- RandBitwiseAnd (R121). -/
def execRandBitwiseAnd (x : Reg) (kk : Byte) (s : State) : Host.Outcome State Fault Refusal :=
  let (rnd, s') := drawRandom s
  .next (randBitwiseAndWith rnd x kk s')

end Sys2Proof.Machine
end

