-- ==== Sys2Proof/Machine/Skip.lean ====
section
/-! DEFINITION. The skip instructions (42_skip.md). A skip writes nothing but `pc` (R106). -/

namespace Sys2Proof.Machine

/-- SkipEqualLiteral (R100). -/
def execSkipEqualLiteral (x : Reg) (kk : Byte) (s : State) : Host.Outcome State Fault Refusal :=
  .next (s.skipInstr (s.getV x == kk))

/-- SkipNotEqualLiteral (R101). -/
def execSkipNotEqualLiteral (x : Reg) (kk : Byte) (s : State) : Host.Outcome State Fault Refusal :=
  .next (s.skipInstr (s.getV x != kk))

/-- SkipEqualRegister (R102); `n` is ignored (R66). -/
def execSkipEqualRegister (x y : Reg) (_n : Nibble) (s : State) : Host.Outcome State Fault Refusal :=
  .next (s.skipInstr (s.getV x == s.getV y))

/-- SkipNotEqualRegister (R103); `n` is ignored (R66). -/
def execSkipNotEqualRegister (x y : Reg) (_n : Nibble) (s : State) : Host.Outcome State Fault Refusal :=
  .next (s.skipInstr (s.getV x != s.getV y))

/-- SkipNextKeyPressed (R104): KEY_INDEX_RANGE when the register is above 15. -/
def execSkipNextKeyPressed (x : Reg) (s : State) : Host.Outcome State Fault Refusal :=
  match keyIndex s x with
  | none => faultIn (.skipNextKeyPressed x) .keyIndexRange s
  | some k => .next (s.skipInstr (s.keyDown k))

/-- SkipNextKeyNotPressed (R105): KEY_INDEX_RANGE when the register is above 15. -/
def execSkipNextKeyNotPressed (x : Reg) (s : State) : Host.Outcome State Fault Refusal :=
  match keyIndex s x with
  | none => faultIn (.skipNextKeyNotPressed x) .keyIndexRange s
  | some k => .next (s.skipInstr (!s.keyDown k))

end Sys2Proof.Machine
end

