-- ==== Sys2Proof/Machine/TimersKeys.lean ====
section
/-! DEFINITION. The timer and key-wait instructions (46_timers_keys.md). The timers they see were already counted down by this Step (R83). -/

namespace Sys2Proof.Machine

/-- SetDelayTimerValue (R150): the register gets the delay timer (D14). -/
def execSetDelayTimerValue (x : Reg) (s : State) : Host.Outcome State Fault Refusal :=
  .next (s.setV x s.dt).endInstr

/-- KeyPressWait (R151): the least key down into the register; with none down nothing changes, and the next Step executes it again. -/
def execKeyPressWait (x : Reg) (s : State) : Host.Outcome State Fault Refusal :=
  match firstKeyDown s with
  | none => .next s
  | some k => .next (s.setV x (BitVec.ofNat 8 k.val)).endInstr

/-- SetDelayTimerRegister (R152): the delay timer gets the register. -/
def execSetDelayTimerRegister (x : Reg) (s : State) : Host.Outcome State Fault Refusal :=
  .next (s.setDt (s.getV x)).endInstr

/-- SetSoundTimerRegister (R153): the sound timer gets the register. -/
def execSetSoundTimerRegister (x : Reg) (s : State) : Host.Outcome State Fault Refusal :=
  .next (s.setSt (s.getV x)).endInstr

end Sys2Proof.Machine
end

