-- ==== Sys2Proof/Machine/Dispatch.lean ====
section
/-! DEFINITION. The execute phase of a Step (R86): one arm per instruction, in the order of the opcode table. -/

namespace Sys2Proof.Machine

/-- The execute phase: the decoded variant's own rule, performed once (R86). -/
def exec (i : Instr) (s : State) : Host.Outcome State Fault Refusal :=
  match i with
  | .clear x => Sys2Proof.Machine.execClear x s
  | .ret x => Sys2Proof.Machine.execRet x s
  | .jumpToMachineCode nnn => Sys2Proof.Machine.execJumpToMachineCode nnn s
  | .jump nnn => Sys2Proof.Machine.execJump nnn s
  | .call nnn => Sys2Proof.Machine.execCall nnn s
  | .skipEqualLiteral x kk => Sys2Proof.Machine.execSkipEqualLiteral x kk s
  | .skipNotEqualLiteral x kk => Sys2Proof.Machine.execSkipNotEqualLiteral x kk s
  | .skipEqualRegister x y n => Sys2Proof.Machine.execSkipEqualRegister x y n s
  | .registerSetLiteral x kk => Sys2Proof.Machine.execRegisterSetLiteral x kk s
  | .registerAddAssign x kk => Sys2Proof.Machine.execRegisterAddAssign x kk s
  | .registerSetRegister x y => Sys2Proof.Machine.execRegisterSetRegister x y s
  | .bitwiseOr x y => Sys2Proof.Machine.execBitwiseOr x y s
  | .bitwiseAnd x y => Sys2Proof.Machine.execBitwiseAnd x y s
  | .bitwiseXor x y => Sys2Proof.Machine.execBitwiseXor x y s
  | .registerSetRegisterAdd x y => Sys2Proof.Machine.execRegisterSetRegisterAdd x y s
  | .registerSetRegisterSub x y => Sys2Proof.Machine.execRegisterSetRegisterSub x y s
  | .registerSetRegisterShr x y => Sys2Proof.Machine.execRegisterSetRegisterShr x y s
  | .registerSetRegisterSubn x y => Sys2Proof.Machine.execRegisterSetRegisterSubn x y s
  | .registerSetRegisterShl x y => Sys2Proof.Machine.execRegisterSetRegisterShl x y s
  | .skipNotEqualRegister x y n => Sys2Proof.Machine.execSkipNotEqualRegister x y n s
  | .setIndex nnn => Sys2Proof.Machine.execSetIndex nnn s
  | .jumpTo nnn => Sys2Proof.Machine.execJumpTo nnn s
  | .randBitwiseAnd x kk => Sys2Proof.Machine.execRandBitwiseAnd x kk s
  | .drawSprite x y n => Sys2Proof.Machine.execDrawSprite x y n s
  | .skipNextKeyPressed x => Sys2Proof.Machine.execSkipNextKeyPressed x s
  | .skipNextKeyNotPressed x => Sys2Proof.Machine.execSkipNextKeyNotPressed x s
  | .setDelayTimerValue x => Sys2Proof.Machine.execSetDelayTimerValue x s
  | .keyPressWait x => Sys2Proof.Machine.execKeyPressWait x s
  | .setDelayTimerRegister x => Sys2Proof.Machine.execSetDelayTimerRegister x s
  | .setSoundTimerRegister x => Sys2Proof.Machine.execSetSoundTimerRegister x s
  | .indexAddAssignRegister x => Sys2Proof.Machine.execIndexAddAssignRegister x s
  | .setIndexToDigitSprite x => Sys2Proof.Machine.execSetIndexToDigitSprite x s
  | .storeBCDAtIndex x => Sys2Proof.Machine.execStoreBCDAtIndex x s
  | .storeRegistersAtIndex x => Sys2Proof.Machine.execStoreRegistersAtIndex x s
  | .readRegistersAtIndex x => Sys2Proof.Machine.execReadRegistersAtIndex x s

end Sys2Proof.Machine
end

