-- ==== Sys2Proof/Machine/HostActions.lean ====
section
/-! DEFINITION. The host's actions between two Steps (R2), other than the Step itself (`Machine/Step.lean`). -/

namespace Sys2Proof.Machine

/-- The memory after a reset with a program image: the reset contents, and the image from 0x200 (R192). -/
def imageMem (image : List Byte) : Memory := Memory.setBytes State.reset.mem Config.progBase image

/-- `H-RESET(image)` (R190): the reset state of R26 with the image loaded. What the random source presents next and the events already
emitted are the host's side and stay as they are (log 9). An image above 3584 bytes is refused (R195). -/
def hostReset (image : List Byte) (s : State) : Host.Outcome State Fault Refusal :=
  if image.length ≤ Config.progMax then
    .next { State.reset with mem := imageMem image, rndIndex := s.rndIndex, events := s.events }
  else .refused .imageTooLarge

/-- `H-KEYS(k)`: writes the 16 key flags (R2, R20). -/
def hostKeys (k : BitVec 16) (s : State) : State := { s with keys := k }

/-- `H-ACK`: clears the redraw flag (R2, R19). -/
def hostAck (s : State) : State := { s with redraw := false }

/-- `H-READ-FB`: reads the framebuffer and the redraw flag, and changes nothing (R2). -/
def hostReadFb (s : State) : Framebuffer × Bool := (s.fb, s.redraw)

end Sys2Proof.Machine
end

