-- ==== Sys2Proof/Machine/Step.lean ====
section
/-! DEFINITION. The processor Step (40_step_sequence.md R80), the machine's only transition, and the host's view of it. -/

namespace Sys2Proof.Machine

/-- One Step: guard, tick, timers, fetch, decode, execute (R80). Its input `rnd` is `Config.rnd` of the state's `rndIndex` (log 1). -/
def step (s : State) : Host.Outcome State Fault Refusal :=
  if guardStops s then .next s
  else
    match fetchWord (phases s) with
    | none => .next (fetchFault (phases s))
    | some w =>
      match decodeWord w with
      | .error _ => .next (reportUnknown w (phases s))
      | .ok i => exec i (phases s)

/-- The state with the instruction whose table bits are `w` (the bits from `nbits` up are 0) stored where `step` fetches next, so that from
a state that is neither halted nor faulted the very next step runs it. It stands for the load of a program from outside (log 5). -/
def State.withFetchWord (s : State) (nbits w : Nat) : State := placeWord (BitVec.ofNat 16 (w % 2 ^ nbits)) s

/-- The actions of the host between two Steps, the Step it asks for among them (R2). -/
inductive HostAction where
  | reset (image : List Byte)
  | step
  | keys (k : BitVec 16)
  | ack
  | readFb
  deriving DecidableEq, Repr

/-- One action of the host (R2). -/
def hostAct (a : HostAction) (s : State) : Host.Outcome State Fault Refusal :=
  match a with
  | .reset image => hostReset image s
  | .step => step s
  | .keys k => .next (hostKeys k s)
  | .ack => .next (hostAck s)
  | .readFb => .next s

/-- A run: actions of the host one after the other, from the first on (R206). -/
def hostRun : List HostAction → State → Host.Outcome State Fault Refusal
  | [], s => .next s
  | a :: as, s =>
    match hostAct a s with
    | .next s' => hostRun as s'
    | .fault r => .fault r
    | .refused r => .refused r

end Sys2Proof.Machine
end

