-- ==== Sys2Proof/Safety.lean ====
section
/-! DEFINITION. The terms claims are written in: what a change leaves as it was, the machine's invariant, and a safe run. -/

namespace Sys2Proof.Machine

/-- The parts of the state a frame speaks of; together they are all of it. -/
inductive Part where
  | regs | index | pc | stack | delayTimer | soundTimer | pixels | redraw | keys | memory | tick | faultRecord | draws | events
  deriving DecidableEq, Repr

/-- A part reads the same in two states: registers one by one, the framebuffer pixel by pixel, memory byte by byte at every address. -/
def Part.same (p : Part) (s t : State) : Prop :=
  match p with
  | .regs => ∀ r : Reg, t.getV r = s.getV r
  | .index => t.i = s.i
  | .pc => t.pc = s.pc
  | .stack => t.sp = s.sp ∧ ∀ k : Fin 16, t.stk[k.val] = s.stk[k.val]
  | .delayTimer => t.dt = s.dt
  | .soundTimer => t.st = s.st
  | .pixels => ∀ (row : Fin 32) (col : Fin 64), pixel t.fb row col = pixel s.fb row col
  | .redraw => t.redraw = s.redraw
  | .keys => t.keys = s.keys
  | .memory => ∀ a : Nat, Memory.get t.mem a = Memory.get s.mem a
  | .tick => t.tick = s.tick
  | .faultRecord => t.fault = s.fault
  | .draws => t.rndIndex = s.rndIndex
  | .events => t.events = s.events

/-- THE FRAME: from `s` to `t`, every part of the state but those listed is unchanged. -/
def UnchangedBut (ps : List Part) (s t : State) : Prop := ∀ p : Part, p ∉ ps → p.same s t

/-- The instructions that can raise a fault cause: the column "raised by" of R161's table. The fetch, not an instruction, raises FETCH_BOUNDS. -/
def canRaise (i : Instr) (cause : FaultCause) : Prop :=
  match cause with
  | .noFault => False
  | .fetchBounds => False
  | .dataBounds =>
    (∃ x y n, i = .drawSprite x y n) ∨ (∃ x, i = .storeBCDAtIndex x) ∨ (∃ x, i = .storeRegistersAtIndex x) ∨
      ∃ x, i = .readRegistersAtIndex x
  | .stackOverflow => ∃ nnn, i = .call nnn
  | .stackUnderflow => ∃ x, i = .ret x
  | .keyIndexRange => (∃ x, i = .skipNextKeyPressed x) ∨ ∃ x, i = .skipNextKeyNotPressed x
  | .returnAddressRange => ∃ nnn, i = .call nnn

/-- The fault record is one a Step could have left (R23, R162, R168): clear; or FETCH_BOUNDS at 0x0FFF with no word; or a cause, the `pc` the
machine still holds, and the word standing there, which is an instruction that can raise that cause. -/
def FaultRecordSound (s : State) : Prop :=
  s.fault = ⟨.noFault, 0x0000, 0x0000⟩ ∨
  (s.fault = ⟨.fetchBounds, 0x0FFF, 0x0000⟩ ∧ s.pc = 0x0FFF) ∨
  ∃ i : Instr, canRaise i s.fault.cause ∧ s.fault.pc = s.pc ∧ fetchWord s = some s.fault.opcode ∧
    decodeWord s.fault.opcode = .ok i

/-- The invariant: memory in canonical form, `pc` at most 0x10FE (R13), a sound fault record. -/
def Inv (s : State) : Prop := Memory.wf s.mem = true ∧ s.pc.toNat ≤ 0x10FE ∧ FaultRecordSound s

/-- A SAFE RUN of `k` Steps: after each of them no fault is latched (R169). -/
def SafeRun : Nat → State → Prop
  | 0, s => s.faulted = false
  | k + 1, s => s.faulted = false ∧ ∃ t : State, step s = .next t ∧ SafeRun k t

end Sys2Proof.Machine
end

