-- ==== Sys2Proof/Certificates/Slice0/Obligations.lean ====
section
/-! DEFINITION. What is claimed of the machine, from the spec's numbered rules. First the terms the claims share, then one definition per
claim. A claim that rests on a choice of the model says so and names the log entry. -/

open Sys2Proof Sys2Proof.Machine

namespace Sys2Proof.Claims

/-- The word `w` stands for the instruction `i`, and for no other: it decodes to `i` and encodes `i`. -/
def HasWord (w : Word) (i : Instr) : Prop := decodeWord w = .ok i ∧ encodeWord i = w

/-- `i` completes at `s`, writes `val` into the one register `x`, advances by 2, and leaves all the rest as it was. -/
def WritesReg (i : Instr) (s : State) (x : Reg) (val : Byte) : Prop :=
  ∃ t : State, exec i s = .next t ∧ (∀ r : Reg, t.getV r = if r = x then val else s.getV r) ∧ t.pc = s.pc + 2 ∧
    UnchangedBut [.regs, .pc] s t

/-- `i` completes at `s`, writes `val` into `x` and then 0x01 or 0x00 into VF as `flag` holds or not, advances by 2, and leaves all the rest. -/
def WritesRegAndFlag (i : Instr) (s : State) (x : Reg) (val : Byte) (flag : Prop) : Prop :=
  ∃ t : State, exec i s = .next t ∧ (flag → t.getV VF = 0x01) ∧ (¬flag → t.getV VF = 0x00) ∧
    (∀ r : Reg, r ≠ VF → t.getV r = if r = x then val else s.getV r) ∧ t.pc = s.pc + 2 ∧ UnchangedBut [.regs, .pc] s t

/-- `i` completes at `s` with `pc` at `target`, and leaves all the rest as it was. -/
def SetsPc (i : Instr) (s : State) (target : Word) : Prop :=
  ∃ t : State, exec i s = .next t ∧ t.pc = target ∧ UnchangedBut [.pc] s t

/-- `i` completes at `s` as a skip on `c`: `pc + 4` when `c` holds, `pc + 2` when not, and all the rest as it was. -/
def Skips (i : Instr) (s : State) (c : Prop) : Prop :=
  ∃ t : State, exec i s = .next t ∧ (c → t.pc = s.pc + 4) ∧ (¬c → t.pc = s.pc + 2) ∧ UnchangedBut [.pc] s t

/-- `i` completes at `s` with the index register at the number `val`, advances by 2, and leaves all the rest as it was. -/
def WritesIndex (i : Instr) (s : State) (val : Nat) : Prop :=
  ∃ t : State, exec i s = .next t ∧ t.i.toNat = val ∧ t.pc = s.pc + 2 ∧ UnchangedBut [.index, .pc] s t

/-- `i` completes at `s` with the bytes `bs` stored from address `a` up and every other address reading as before, memory in canonical form,
advances by 2, and leaves all the rest as it was. -/
def Stores (i : Instr) (s : State) (a : Nat) (bs : List Byte) : Prop :=
  ∃ t : State, exec i s = .next t ∧
    (∀ k : Nat, ∀ h : k < bs.length, Memory.get t.mem (a + k) = bs[k]) ∧
    (∀ c : Nat, c < a ∨ a + bs.length ≤ c → Memory.get t.mem c = Memory.get s.mem c) ∧
    Memory.wf t.mem = true ∧ t.pc = s.pc + 2 ∧ UnchangedBut [.memory, .pc] s t

/-- `i` raises the fault `cause` at `s`: a next state in which the record holds the cause, the `pc` and the word of `i`, and nothing else changed. -/
def Faults (i : Instr) (s : State) (cause : FaultCause) : Prop :=
  ∃ t : State, exec i s = .next t ∧ t.fault = ⟨cause, s.pc, encodeWord i⟩ ∧ UnchangedBut [.faultRecord] s t

/-- A 1 bit of the sprite lands on the pixel (row, col): row `r` of the sprite is the byte at `I + r`, column `c` its bit `7 - c`, and the place is
`(vy + r) mod 32`, `(vx + c) mod 64` (R142). -/
def SpriteLands (s : State) (x y : Reg) (n : Nibble) (row : Fin 32) (col : Fin 64) : Prop :=
  ∃ r c : Nat, r < n.toNat ∧ c < 8 ∧ (Memory.get s.mem (dataBase s + r)).getLsbD (7 - c) = true ∧
    row.val = ((s.getV y).toNat + r) % 32 ∧ col.val = ((s.getV x).toNat + c) % 64

/-- The instruction the next Step executes, if it gets that far. -/
def fetchedInstr (s : State) : Option Instr :=
  match fetchWord s with
  | none => none
  | some w =>
    match decodeWord w with
    | .ok i => some i
    | .error _ => none

/-- The fault the rules make due when `i` executes at `s` (R161 to R167), in the order of R172. -/
def causeDue (i : Instr) (s : State) : FaultCause :=
  match i with
  | .ret _ => if s.sp.val = 0 then .stackUnderflow else .noFault
  | .call _ => if s.sp.val = 16 then .stackOverflow else if 0x0FFF < s.pc.toNat + 2 then .returnAddressRange else .noFault
  | .skipNextKeyPressed x => if 15 < (s.getV x).toNat then .keyIndexRange else .noFault
  | .skipNextKeyNotPressed x => if 15 < (s.getV x).toNat then .keyIndexRange else .noFault
  | .drawSprite _ _ n => if 1 ≤ n.toNat ∧ 0x0FFF < s.i.toNat + n.toNat - 1 then .dataBounds else .noFault
  | .storeBCDAtIndex _ => if 0x0FFF < s.i.toNat + 2 then .dataBounds else .noFault
  | .storeRegistersAtIndex x => if 0x0FFF < s.i.toNat + x.val then .dataBounds else .noFault
  | .readRegistersAtIndex x => if 0x0FFF < s.i.toNat + x.val then .dataBounds else .noFault
  | _ => .noFault

/-- Which instructions may write a part of the state when they execute: the column "written by" of 10_state.md section 1. The general registers and
`pc` have claims of their own. -/
def mayWrite (p : Part) (i : Instr) : Prop :=
  match p with
  | .regs => True
  | .pc => True
  | .index => (∃ nnn, i = .setIndex nnn) ∨ (∃ x, i = .indexAddAssignRegister x) ∨ ∃ x, i = .setIndexToDigitSprite x
  | .stack => (∃ nnn, i = .call nnn) ∨ ∃ x, i = .ret x
  | .delayTimer => ∃ x, i = .setDelayTimerRegister x
  | .soundTimer => ∃ x, i = .setSoundTimerRegister x
  | .pixels => (∃ x, i = .clear x) ∨ ∃ x y n, i = .drawSprite x y n
  | .redraw => (∃ x, i = .clear x) ∨ ∃ x y n, i = .drawSprite x y n
  | .keys => False
  | .memory => (∃ x, i = .storeBCDAtIndex x) ∨ ∃ x, i = .storeRegistersAtIndex x
  | .tick => False
  | .faultRecord => ∃ c, canRaise i c
  | .draws => ∃ x kk, i = .randBitwiseAnd x kk
  | .events => False

/-- Whether an instruction writes register `r`, as its destination or, for VF, as a flag (10_state.md section 2, R11). -/
def mayWriteReg (i : Instr) (r : Reg) : Prop :=
  match i with
  | .registerSetLiteral x _ => r = x
  | .registerAddAssign x _ => r = x
  | .registerSetRegister x _ => r = x
  | .bitwiseOr x _ => r = x
  | .bitwiseAnd x _ => r = x
  | .bitwiseXor x _ => r = x
  | .registerSetRegisterAdd x _ => r = x ∨ r = VF
  | .registerSetRegisterSub x _ => r = x ∨ r = VF
  | .registerSetRegisterShr x _ => r = x ∨ r = VF
  | .registerSetRegisterSubn x _ => r = x ∨ r = VF
  | .registerSetRegisterShl x _ => r = x ∨ r = VF
  | .randBitwiseAnd x _ => r = x
  | .setDelayTimerValue x => r = x
  | .keyPressWait x => r = x
  | .readRegistersAtIndex x => r.val ≤ x.val
  | .drawSprite _ _ _ => r = VF
  | _ => False

/-- The classes of R86. -/
inductive PcClass where
  | endInstr | skipInstr (c : Prop) | direct (target : Nat) | wait

/-- The class of an instruction at a state, with the condition of a skip and the target of a transfer (R86, R91 to R94, R100 to R105). -/
def pcClass (i : Instr) (s : State) : PcClass :=
  match i with
  | .skipEqualLiteral x kk => .skipInstr (s.getV x = kk)
  | .skipNotEqualLiteral x kk => .skipInstr (s.getV x ≠ kk)
  | .skipEqualRegister x y _ => .skipInstr (s.getV x = s.getV y)
  | .skipNotEqualRegister x y _ => .skipInstr (s.getV x ≠ s.getV y)
  | .skipNextKeyPressed x => .skipInstr (s.keys.getLsbD (s.getV x).toNat = true)
  | .skipNextKeyNotPressed x => .skipInstr (s.keys.getLsbD (s.getV x).toNat = false)
  | .jump nnn => .direct nnn.toNat
  | .call nnn => .direct nnn.toNat
  | .jumpTo nnn => .direct ((s.getV 0).toNat + nnn.toNat)
  | .ret _ => .direct (s.stk[s.sp.val - 1]).toNat
  | .keyPressWait _ => .wait
  | _ => .endInstr

/-- `pc` after an instruction of a class (R86). -/
def PcClass.holds (k : PcClass) (s t : State) : Prop :=
  match k with
  | .endInstr => t.pc = s.pc + 2
  | .skipInstr c => (c → t.pc = s.pc + 4) ∧ (¬c → t.pc = s.pc + 2)
  | .direct a => t.pc.toNat = a
  | .wait => (s.keys ≠ 0 → t.pc = s.pc + 2) ∧ (s.keys = 0 → t.pc = s.pc)

/-- The font of R193, glyph by glyph. -/
def fontTable : List (List Byte) :=
  [[0xF0, 0x90, 0x90, 0x90, 0xF0], [0x20, 0x60, 0x20, 0x20, 0x70], [0xF0, 0x10, 0xF0, 0x80, 0xF0], [0xF0, 0x10, 0xF0, 0x10, 0xF0]] ++
  [[0x90, 0x90, 0xF0, 0x10, 0x10], [0xF0, 0x80, 0xF0, 0x10, 0xF0], [0xF0, 0x80, 0xF0, 0x90, 0xF0], [0xF0, 0x10, 0x20, 0x40, 0x40]] ++
  [[0xF0, 0x90, 0xF0, 0x90, 0xF0], [0xF0, 0x90, 0xF0, 0x10, 0xF0], [0xF0, 0x90, 0xF0, 0x90, 0x90], [0xE0, 0x90, 0xE0, 0x90, 0xE0]] ++
  [[0xF0, 0x80, 0x80, 0x80, 0xF0], [0xE0, 0x90, 0x90, 0x90, 0xE0], [0xF0, 0x80, 0xF0, 0x80, 0xF0], [0xF0, 0x80, 0xF0, 0x80, 0x80]]

/-- No action of the list is a reset. -/
def NoReset (as : List HostAction) : Prop := ∀ image, HostAction.reset image ∉ as

end Sys2Proof.Claims

open Sys2Proof.Claims

/-! Encoding. -/

/-- Every well-formed instruction's word decodes to it, and so do its two bytes at the head of any bytes, which follow unread. -/
def Obligations.DecodeOfEncodeIsIdentity : Prop :=
  ∀ i : Instr, WellFormed i = true →
    decodeWord (encodeWord i) = .ok i ∧ ∀ rest : List Byte, decode (encode i ++ rest) = .ok (i, rest)

/-- Every word that decodes is the word of what it decodes to, a well-formed instruction: no bit of it is dropped, the ignored ones included (log 3). -/
def Obligations.EncodeOfDecodeIsIdentity : Prop :=
  ∀ (w : Word) (i : Instr), decodeWord w = .ok i → WellFormed i = true ∧ encodeWord i = w

/-- A word is an unknown opcode exactly in the cases R70 lists, and is then rejected with its fields. -/
def Obligations.UnknownOpcodesAreExactlyTheListed : Prop :=
  ∀ w : Word,
    (decodeWord w = .error (.unknownOpcode (fieldsOf w)) ↔
      ((fieldsOf w).group = 0x8 ∧ (fieldsOf w).n ∈ [(0x8 : Nibble), 0x9, 0xA, 0xB, 0xC, 0xD, 0xF]) ∨
      ((fieldsOf w).group = 0xE ∧ (fieldsOf w).kk ∉ [(0x9E : Byte), 0xA1]) ∨
      ((fieldsOf w).group = 0xF ∧ (fieldsOf w).kk ∉ [(0x07 : Byte), 0x0A, 0x15, 0x18, 0x1E, 0x29, 0x33, 0x55, 0x65])) ∧
    (decodeWord w ≠ .error (.unknownOpcode (fieldsOf w)) → ∃ i : Instr, decodeWord w = .ok i)

/-- The six fields of a word, as numbers and as parts of each other (R61). -/
def Obligations.FieldsAreTheBitsOfTheWord : Prop :=
  ∀ w : Word,
    (fieldsOf w).group.toNat = w.toNat / 4096 ∧ (fieldsOf w).nnn.toNat = w.toNat % 4096 ∧
    (fieldsOf w).x.toNat = w.toNat / 256 % 16 ∧ (fieldsOf w).y.toNat = w.toNat / 16 % 16 ∧
    (fieldsOf w).n.toNat = w.toNat % 16 ∧ (fieldsOf w).kk.toNat = w.toNat % 256 ∧
    (fieldsOf w).nnn = (fieldsOf w).x ++ (fieldsOf w).y ++ (fieldsOf w).n ∧
    (fieldsOf w).nnn = (fieldsOf w).x ++ (fieldsOf w).kk ∧ (fieldsOf w).kk = (fieldsOf w).y ++ (fieldsOf w).n

/-- Decode vectors of 95_test_vectors.md section 2.1. -/
def Obligations.WordsOfTheSpecDecode : Prop :=
  decodeWord 0x00E0 = .ok (.clear 0x0) ∧ decodeWord 0x01E0 = .ok (.clear 0x1) ∧ decodeWord 0x0FEE = .ok (.ret 0xF) ∧
  decodeWord 0x0000 = .ok (.jumpToMachineCode 0x000) ∧ decodeWord 0x1ABC = .ok (.jump 0xABC) ∧
  decodeWord 0x5127 = .ok (.skipEqualRegister 1 2 0x7) ∧ decodeWord 0x8AB7 = .ok (.registerSetRegisterSubn 10 11) ∧
  decodeWord 0x8ABE = .ok (.registerSetRegisterShl 10 11) ∧ decodeWord 0xE09E = .ok (.skipNextKeyPressed 0) ∧
  decodeWord 0xF065 = .ok (.readRegistersAtIndex 0) ∧ decodeWord 0xFF0A = .ok (.keyPressWait 15) ∧
  decodeWord 0xD00F = .ok (.drawSprite 0 0 0xF)

/-! Register, ALU and random instructions. -/

/-- RegisterSetLiteral and RegisterAddAssign: word, result, frame, no flag (R110, R111). -/
def Obligations.LiteralInstructionsWriteOneRegister : Prop :=
  ∀ (x : Reg) (kk : Byte) (s : State),
    HasWord (formatXK 0x6 (regField x) kk) (.registerSetLiteral x kk) ∧
    WritesReg (.registerSetLiteral x kk) s x kk ∧
    HasWord (formatXK 0x7 (regField x) kk) (.registerAddAssign x kk) ∧
    WritesReg (.registerAddAssign x kk) s x (BitVec.ofNat 8 (((s.getV x).toNat + kk.toNat) % 256))

/-- RegisterSetRegister, BitwiseOr, BitwiseAnd, BitwiseXor: word, result bit by bit, frame, no flag (R112 to R115). -/
def Obligations.CopyAndLogicWriteOneRegister : Prop :=
  ∀ (x y : Reg) (s : State),
    HasWord (formatXY 0x8 (regField x) (regField y) 0x0) (.registerSetRegister x y) ∧
    WritesReg (.registerSetRegister x y) s x (s.getV y) ∧
    HasWord (formatXY 0x8 (regField x) (regField y) 0x1) (.bitwiseOr x y) ∧
    (∃ v : Byte, (∀ k, v.getLsbD k = ((s.getV x).getLsbD k || (s.getV y).getLsbD k)) ∧ WritesReg (.bitwiseOr x y) s x v) ∧
    HasWord (formatXY 0x8 (regField x) (regField y) 0x2) (.bitwiseAnd x y) ∧
    (∃ v : Byte, (∀ k, v.getLsbD k = ((s.getV x).getLsbD k && (s.getV y).getLsbD k)) ∧ WritesReg (.bitwiseAnd x y) s x v) ∧
    HasWord (formatXY 0x8 (regField x) (regField y) 0x3) (.bitwiseXor x y) ∧
    ∃ v : Byte, (∀ k, v.getLsbD k = ((s.getV x).getLsbD k ^^ (s.getV y).getLsbD k)) ∧ WritesReg (.bitwiseXor x y) s x v

/-- RegisterSetRegisterAdd: word, wrapped sum, carry written last, frame, for every `x` and `y`, VF among them (R116). -/
def Obligations.AddWritesSumThenCarry : Prop :=
  ∀ (x y : Reg) (s : State),
    HasWord (formatXY 0x8 (regField x) (regField y) 0x4) (.registerSetRegisterAdd x y) ∧
    WritesRegAndFlag (.registerSetRegisterAdd x y) s x
      (BitVec.ofNat 8 (((s.getV x).toNat + (s.getV y).toNat) % 256)) (255 < (s.getV x).toNat + (s.getV y).toNat)

/-- RegisterSetRegisterSub and Subn: word, wrapped difference, no-borrow flag written last, frame (R117, R119). -/
def Obligations.SubtractWritesDifferenceThenNoBorrow : Prop :=
  ∀ (x y : Reg) (s : State),
    HasWord (formatXY 0x8 (regField x) (regField y) 0x5) (.registerSetRegisterSub x y) ∧
    WritesRegAndFlag (.registerSetRegisterSub x y) s x
      (BitVec.ofInt 8 (((s.getV x).toNat : Int) - (s.getV y).toNat)) ((s.getV y).toNat ≤ (s.getV x).toNat) ∧
    HasWord (formatXY 0x8 (regField x) (regField y) 0x7) (.registerSetRegisterSubn x y) ∧
    WritesRegAndFlag (.registerSetRegisterSubn x y) s x
      (BitVec.ofInt 8 (((s.getV y).toNat : Int) - (s.getV x).toNat)) ((s.getV x).toNat ≤ (s.getV y).toNat)

/-- RegisterSetRegisterShr and Shl: word, `V[x]` shifted in place, the old bit 0 or bit 7 into VF last, frame; `y` has no effect (R118, R120). -/
def Obligations.ShiftsWriteInPlaceThenTheBitShiftedOut : Prop :=
  ∀ (x y : Reg) (s : State),
    HasWord (formatXY 0x8 (regField x) (regField y) 0x6) (.registerSetRegisterShr x y) ∧
    WritesRegAndFlag (.registerSetRegisterShr x y) s x (BitVec.ofNat 8 ((s.getV x).toNat / 2)) ((s.getV x).toNat % 2 = 1) ∧
    HasWord (formatXY 0x8 (regField x) (regField y) 0xE) (.registerSetRegisterShl x y) ∧
    WritesRegAndFlag (.registerSetRegisterShl x y) s x (BitVec.ofNat 8 ((s.getV x).toNat * 2 % 256))
      (128 ≤ (s.getV x).toNat)

/-- RandBitwiseAnd completes with the and of `kk` and the byte the random source presents, so bits where `kk` has 0 are 0; each execution takes a
new draw. That the byte is `Config.rnd` of the state's draw number is the model's choice (log 1), and nothing is claimed of its value: exec is
`randBitwiseAndWith` at that byte, and the last clause says what that does for every byte. -/
def Obligations.RandomByteIsMaskedIntoRegister : Prop :=
  ∀ (x : Reg) (kk : Byte) (s : State),
    HasWord (formatXK 0xC (regField x) kk) (.randBitwiseAnd x kk) ∧
    (∃ t : State, exec (.randBitwiseAnd x kk) s = .next t ∧
      (∀ r : Reg, t.getV r = if r = x then Config.rnd s.rndIndex &&& kk else s.getV r) ∧ t.getV x &&& ~~~kk = 0 ∧
      t.rndIndex = s.rndIndex + 1 ∧ t.pc = s.pc + 2 ∧ UnchangedBut [.regs, .pc, .draws] s t) ∧
    exec (.randBitwiseAnd x kk) s =
      .next (randBitwiseAndWith (Config.rnd s.rndIndex) x kk { s with rndIndex := s.rndIndex + 1 }) ∧
    ∀ rnd : Byte, (randBitwiseAndWith rnd x kk s).getV x = rnd &&& kk ∧ (randBitwiseAndWith rnd x kk s).pc = s.pc + 2 ∧
      (∀ r : Reg, r ≠ x → (randBitwiseAndWith rnd x kk s).getV r = s.getV r) ∧
      UnchangedBut [.regs, .pc] s (randBitwiseAndWith rnd x kk s)

/-! Control flow. -/

/-- JumpToMachineCode, Jump and JumpTo: words, targets, frames; JumpTo's sum is not reduced, and above 0x0FFF the machine is halted from the next
Step on (R90, R92, R94). -/
def Obligations.JumpsSetOnlyThePc : Prop :=
  ∀ (nnn : Addr12) (s : State),
    (lowByte nnn ≠ 0xE0 → lowByte nnn ≠ 0xEE → HasWord (formatA 0x0 nnn) (.jumpToMachineCode nnn)) ∧
    SetsPc (.jumpToMachineCode nnn) s (s.pc + 2) ∧
    HasWord (formatA 0x1 nnn) (.jump nnn) ∧
    SetsPc (.jump nnn) s (nnn.zeroExtend 16) ∧
    HasWord (formatA 0xB nnn) (.jumpTo nnn) ∧
    (∃ target : Word, target.toNat = (s.getV 0).toNat + nnn.toNat ∧ SetsPc (.jumpTo nnn) s target) ∧
    ∀ t : State, exec (.jumpTo nnn) s = .next t → 0x0FFF < (s.getV 0).toNat + nnn.toNat → t.halted = true ∧ step t = .next t

/-- Return: underflow on an empty stack; else `sp` down by one, `pc` at the popped entry, which stays in the stack (R91). -/
def Obligations.ReturnPopsOrUnderflows : Prop :=
  ∀ (x : Nibble) (s : State),
    HasWord (formatXK 0x0 x 0xEE) (.ret x) ∧
    (s.sp.val = 0 → Faults (.ret x) s .stackUnderflow) ∧
    ∀ h : 0 < s.sp.val, ∃ t : State, exec (.ret x) s = .next t ∧ t.sp.val = s.sp.val - 1 ∧
      t.pc.toNat = (s.stk[s.sp.val - 1]).toNat ∧ (∀ k : Fin 16, t.stk[k.val] = s.stk[k.val]) ∧ UnchangedBut [.pc, .stack] s t

/-- Call: overflow, tested first; an unrepresentable return address; else `pc + 2` pushed and the jump, and a Return from there comes back to
`pc + 2` with the stack pointer as before (R93). -/
def Obligations.CallPushesOrFaults : Prop :=
  ∀ (nnn : Addr12) (s : State),
    HasWord (formatA 0x2 nnn) (.call nnn) ∧
    (s.sp.val = 16 → Faults (.call nnn) s .stackOverflow) ∧
    (s.sp.val ≠ 16 → 0x0FFF < s.pc.toNat + 2 → Faults (.call nnn) s .returnAddressRange) ∧
    (s.sp.val ≠ 16 → s.pc.toNat + 2 ≤ 0x0FFF → ∃ t : State, exec (.call nnn) s = .next t ∧
      t.sp.val = s.sp.val + 1 ∧ t.pc = nnn.zeroExtend 16 ∧
      (∀ k : Fin 16, (k.val = s.sp.val → (t.stk[k.val]).toNat = s.pc.toNat + 2) ∧ (k.val ≠ s.sp.val → t.stk[k.val] = s.stk[k.val])) ∧
      UnchangedBut [.pc, .stack] s t ∧
      ∀ x : Nibble, ∃ u : State, exec (.ret x) t = .next u ∧ u.pc = s.pc + 2 ∧ u.sp = s.sp ∧ UnchangedBut [.pc, .stack] s u)

/-! Skips. -/

/-- The four comparing skips (R100 to R103). -/
def Obligations.ComparingSkipsTestAndStep : Prop :=
  ∀ (x y : Reg) (kk : Byte) (n : Nibble) (s : State),
    HasWord (formatXK 0x3 (regField x) kk) (.skipEqualLiteral x kk) ∧
    Skips (.skipEqualLiteral x kk) s (s.getV x = kk) ∧
    HasWord (formatXK 0x4 (regField x) kk) (.skipNotEqualLiteral x kk) ∧
    Skips (.skipNotEqualLiteral x kk) s (s.getV x ≠ kk) ∧
    HasWord (formatXY 0x5 (regField x) (regField y) n) (.skipEqualRegister x y n) ∧
    Skips (.skipEqualRegister x y n) s (s.getV x = s.getV y) ∧
    HasWord (formatXY 0x9 (regField x) (regField y) n) (.skipNotEqualRegister x y n) ∧
    Skips (.skipNotEqualRegister x y n) s (s.getV x ≠ s.getV y)

/-- The two key skips: the level of the key the register names, or the fault above 15 (R104, R105). -/
def Obligations.KeySkipsTestTheKeyOrFault : Prop :=
  ∀ (x : Reg) (s : State),
    HasWord (formatXK 0xE (regField x) 0x9E) (.skipNextKeyPressed x) ∧
    HasWord (formatXK 0xE (regField x) 0xA1) (.skipNextKeyNotPressed x) ∧
    (15 < (s.getV x).toNat → Faults (.skipNextKeyPressed x) s .keyIndexRange ∧ Faults (.skipNextKeyNotPressed x) s .keyIndexRange) ∧
    ((s.getV x).toNat ≤ 15 → Skips (.skipNextKeyPressed x) s (s.keys.getLsbD (s.getV x).toNat = true) ∧
      Skips (.skipNextKeyNotPressed x) s (s.keys.getLsbD (s.getV x).toNat = false))

/-! Index register and memory. -/

/-- SetIndex, IndexAddAssignRegister and SetIndexToDigitSprite (R130 to R132). -/
def Obligations.IndexInstructionsWriteOnlyTheIndex : Prop :=
  ∀ (nnn : Addr12) (x : Reg) (s : State),
    HasWord (formatA 0xA nnn) (.setIndex nnn) ∧
    WritesIndex (.setIndex nnn) s nnn.toNat ∧
    HasWord (formatXK 0xF (regField x) 0x1E) (.indexAddAssignRegister x) ∧
    WritesIndex (.indexAddAssignRegister x) s ((s.i.toNat + (s.getV x).toNat) % 65536) ∧
    HasWord (formatXK 0xF (regField x) 0x29) (.setIndexToDigitSprite x) ∧
    WritesIndex (.setIndexToDigitSprite x) s ((s.getV x).toNat * 5)

/-- StoreBCDAtIndex: hundreds, tens and units at `I`, `I + 1`, `I + 2`, each a digit, together the register's value; or the fault (R133;
the canonical form of memory is the model's, log 5). -/
def Obligations.StoreBcdWritesThreeDigitsOrFaults : Prop :=
  ∀ (x : Reg) (s : State), Memory.wf s.mem = true →
    HasWord (formatXK 0xF (regField x) 0x33) (.storeBCDAtIndex x) ∧
    (dataBase s + 2 ≤ 0x0FFF → ∃ h t u : Byte,
      h.toNat = (s.getV x).toNat / 100 ∧ t.toNat = (s.getV x).toNat / 10 % 10 ∧ u.toNat = (s.getV x).toNat % 10 ∧
      h.toNat ≤ 2 ∧ t.toNat ≤ 9 ∧ u.toNat ≤ 9 ∧ 100 * h.toNat + 10 * t.toNat + u.toNat = (s.getV x).toNat ∧
      Stores (.storeBCDAtIndex x) s (dataBase s) [h, t, u]) ∧
    (0x0FFF < dataBase s + 2 → Faults (.storeBCDAtIndex x) s .dataBounds)

/-- StoreRegistersAtIndex: `M[I + k] <- V[k]` for `k` from 0 to `x`; or the fault (R134; the canonical form of memory is the
model's, log 5). -/
def Obligations.StoreRegistersWritesTheRangeOrFaults : Prop :=
  ∀ (x : Reg) (s : State), Memory.wf s.mem = true →
    HasWord (formatXK 0xF (regField x) 0x55) (.storeRegistersAtIndex x) ∧
    (dataBase s + x.val ≤ 0x0FFF → ∃ bs : List Byte, bs.length = x.val + 1 ∧
      (∀ k : Fin 16, k.val ≤ x.val → bs[k.val]? = some (s.getV k)) ∧ Stores (.storeRegistersAtIndex x) s (dataBase s) bs) ∧
    (0x0FFF < dataBase s + x.val → Faults (.storeRegistersAtIndex x) s .dataBounds)

/-- ReadRegistersAtIndex: `V[k] <- M[I + k]` for `k` from 0 to `x`, the other registers as they were; or the fault; and after a
StoreRegistersAtIndex with the same `x` and `I` it leaves every register as before both (R135). -/
def Obligations.ReadRegistersLoadsTheRangeOrFaults : Prop :=
  ∀ (x : Reg) (s : State),
    HasWord (formatXK 0xF (regField x) 0x65) (.readRegistersAtIndex x) ∧
    (dataBase s + x.val ≤ 0x0FFF → ∃ t : State, exec (.readRegistersAtIndex x) s = .next t ∧
      (∀ k : Reg, (k.val ≤ x.val → t.getV k = Memory.get s.mem (dataBase s + k.val)) ∧ (x.val < k.val → t.getV k = s.getV k)) ∧
      t.pc = s.pc + 2 ∧ UnchangedBut [.regs, .pc] s t) ∧
    (0x0FFF < dataBase s + x.val → Faults (.readRegistersAtIndex x) s .dataBounds) ∧
    ∀ t : State, Memory.wf s.mem = true → dataBase s + x.val ≤ 0x0FFF → exec (.storeRegistersAtIndex x) s = .next t →
      ∃ u : State, exec (.readRegistersAtIndex x) t = .next u ∧ (∀ r : Reg, u.getV r = s.getV r) ∧ u.i = s.i ∧
        ∀ a : Nat, Memory.get u.mem a = Memory.get t.mem a

/-- Two registers stored over the next instruction are the word the next Step fetches (R53). -/
def Obligations.NextFetchSeesTheStore : Prop :=
  ∀ (x : Reg) (s t : State), Memory.wf s.mem = true → 1 ≤ x.val → dataBase s = s.pc.toNat + 2 → dataBase s + x.val ≤ 0x0FFF →
    exec (.storeRegistersAtIndex x) s = .next t →
    ∃ w : Word, fetchWord t = some w ∧ w.toNat = (s.getV 0).toNat * 256 + (s.getV 1).toNat

/-- The access primitives: MemRead and MemWrite in range, at the exact sum, and the fault with nothing written beyond it (R41, R42; the
canonical form of memory is the model's, log 5). -/
def Obligations.AccessPrimitivesCheckTheWholeRange : Prop :=
  ∀ (m : Memory) (a n : Nat) (bs : List Byte), Memory.wf m = true →
    (n = 0 → memRead m a n = some []) ∧
    (a + n ≤ 4096 → ∃ got : List Byte, memRead m a n = some got ∧ got.length = n ∧ ∀ k < n, got[k]? = some (Memory.get m (a + k))) ∧
    (1 ≤ n → 0x0FFF < a + n - 1 → memRead m a n = none) ∧
    (a + bs.length ≤ 4096 → ∃ m' : Memory, memWrite m a bs = some m' ∧ Memory.wf m' = true ∧
      (∀ k : Nat, ∀ h : k < bs.length, Memory.get m' (a + k) = bs[k]) ∧
      ∀ c : Nat, c < a ∨ a + bs.length ≤ c → Memory.get m' c = Memory.get m c) ∧
    (1 ≤ bs.length → 0x0FFF < a + bs.length - 1 → memWrite m a bs = none)

/-- Canonical memories that read the same at every address are the same data (the model's own form of memory, log 5). -/
def Obligations.CanonicalMemoriesReadingAlikeAreEqual : Prop :=
  ∀ m m' : Memory, Memory.wf m = true → Memory.wf m' = true → (∀ a : Nat, Memory.get m a = Memory.get m' a) → m = m'

/-- The conditions of DATA_BOUNDS, all four, each tested on the exact sum; otherwise the record is not written (R163). -/
def Obligations.DataBoundsRaisedExactlyBeyondMemory : Prop :=
  ∀ (x y : Reg) (n : Nibble) (s : State),
    (1 ≤ n.toNat → 0x0FFF < s.i.toNat + n.toNat - 1 → Faults (.drawSprite x y n) s .dataBounds) ∧
    (0x0FFF < s.i.toNat + 2 → Faults (.storeBCDAtIndex x) s .dataBounds) ∧
    (0x0FFF < s.i.toNat + x.val → Faults (.storeRegistersAtIndex x) s .dataBounds ∧ Faults (.readRegistersAtIndex x) s .dataBounds) ∧
    (∀ t : State, n.toNat = 0 ∨ s.i.toNat + n.toNat - 1 ≤ 0x0FFF → exec (.drawSprite x y n) s = .next t → t.fault = s.fault) ∧
    (∀ t : State, s.i.toNat + 2 ≤ 0x0FFF → exec (.storeBCDAtIndex x) s = .next t → t.fault = s.fault) ∧
    (∀ t : State, s.i.toNat + x.val ≤ 0x0FFF →
      exec (.storeRegistersAtIndex x) s = .next t ∨ exec (.readRegistersAtIndex x) s = .next t → t.fault = s.fault)

/-! Display. -/

/-- Clear: every pixel 0, `redraw` 1, VF and all the rest as they were (R140). -/
def Obligations.ClearBlanksTheFramebuffer : Prop :=
  ∀ (x : Nibble) (s : State),
    HasWord (formatXK 0x0 x 0xE0) (.clear x) ∧
    ∃ t : State, exec (.clear x) s = .next t ∧ (∀ row col, pixel t.fb row col = false) ∧ t.redraw = true ∧ t.pc = s.pc + 2 ∧
      UnchangedBut [.pixels, .redraw, .pc] s t

/-- DrawSprite: the pixels the sprite's 1 bits land on are inverted and no others, VF tells whether one of them was lit, `redraw` is set, and all
the rest is as it was; with no rows nothing is read; out of range it faults (R141 to R143). -/
def Obligations.DrawSpriteXorsTheSpriteAndFlagsCollision : Prop :=
  ∀ (x y : Reg) (n : Nibble) (s : State),
    HasWord (formatXY 0xD (regField x) (regField y) n) (.drawSprite x y n) ∧
    (1 ≤ n.toNat → 0x0FFF < dataBase s + n.toNat - 1 → Faults (.drawSprite x y n) s .dataBounds) ∧
    (n.toNat = 0 ∨ dataBase s + n.toNat - 1 ≤ 0x0FFF → ∃ t : State, exec (.drawSprite x y n) s = .next t ∧
      (∀ row col, (SpriteLands s x y n row col → pixel t.fb row col = !pixel s.fb row col) ∧
        (¬SpriteLands s x y n row col → pixel t.fb row col = pixel s.fb row col)) ∧
      ((∃ row col, SpriteLands s x y n row col ∧ pixel s.fb row col = true) → t.getV VF = 0x01) ∧
      (¬(∃ row col, SpriteLands s x y n row col ∧ pixel s.fb row col = true) → t.getV VF = 0x00) ∧
      (∀ r : Reg, r ≠ VF → t.getV r = s.getV r) ∧ t.redraw = true ∧ t.pc = s.pc + 2 ∧
      UnchangedBut [.regs, .pixels, .redraw, .pc] s t)

/-- The same sprite drawn twice, at coordinates not in VF: the framebuffer is what it was before the first draw, and the second reports a
collision exactly when the first lit a pixel (R141's property). -/
def Obligations.DrawingTwiceRestoresTheFramebuffer : Prop :=
  ∀ (x y : Reg) (n : Nibble) (s t : State), x ≠ VF → y ≠ VF → n.toNat = 0 ∨ dataBase s + n.toNat - 1 ≤ 0x0FFF →
    exec (.drawSprite x y n) s = .next t →
    ∃ u : State, exec (.drawSprite x y n) t = .next u ∧ u.fb = s.fb ∧
      (u.getV VF = 0x01 ↔ ∃ row col, pixel s.fb row col = false ∧ pixel t.fb row col = true)

/-! Timers and keys. -/

/-- SetDelayTimerValue, SetDelayTimerRegister and SetSoundTimerRegister: words, results, frames (R150, R152, R153 for the execute phase). -/
def Obligations.TimerInstructionsCopyBetweenTimerAndRegister : Prop :=
  ∀ (x : Reg) (s : State),
    HasWord (formatXK 0xF (regField x) 0x07) (.setDelayTimerValue x) ∧
    WritesReg (.setDelayTimerValue x) s x s.dt ∧
    HasWord (formatXK 0xF (regField x) 0x15) (.setDelayTimerRegister x) ∧
    (∃ t : State, exec (.setDelayTimerRegister x) s = .next t ∧ t.dt = s.getV x ∧ t.pc = s.pc + 2 ∧ UnchangedBut [.delayTimer, .pc] s t) ∧
    HasWord (formatXK 0xF (regField x) 0x18) (.setSoundTimerRegister x) ∧
    ∃ t : State, exec (.setSoundTimerRegister x) s = .next t ∧ t.st = s.getV x ∧ t.pc = s.pc + 2 ∧ UnchangedBut [.soundTimer, .pc] s t

/-- KeyPressWait: with no key down nothing changes, so a Step leaves only its first phases' changes and the next Step executes it again; else the
least key down into the register and on (R151). -/
def Obligations.KeyPressWaitTakesTheLeastKeyOrHolds : Prop :=
  ∀ (x : Reg) (s : State),
    HasWord (formatXK 0xF (regField x) 0x0A) (.keyPressWait x) ∧
    ((∀ k : Fin 16, s.keys.getLsbD k.val = false) → exec (.keyPressWait x) s = .next s) ∧
    (∀ k : Fin 16, s.keys.getLsbD k.val = true → (∀ j : Fin 16, j.val < k.val → s.keys.getLsbD j.val = false) →
      WritesReg (.keyPressWait x) s x (BitVec.ofNat 8 k.val)) ∧
    (guardStops s = false → fetchedInstr s = some (.keyPressWait x) → s.keys = 0 →
      step s = .next (phases s) ∧ guardStops (phases s) = false ∧ fetchedInstr (phases s) = some (.keyPressWait x))

/-! The Step. -/

/-- The sequence of R80: guard; tick; timers with the beep before the decrement; fetch or its fault; decode or the report; and then the decoded
instruction, executed at the state the first three phases leave. -/
def Obligations.StepRunsTheDecodedInstruction : Prop :=
  ∀ s p : State,
    p = { s with
      tick := s.tick + 1
      events := if s.st = 0 then s.events else .beep :: s.events
      dt := if s.dt = 0 then 0 else s.dt - 1
      st := if s.st = 0 then 0 else s.st - 1 } →
    (s.fault.cause ≠ .noFault ∨ 0x0FFF < s.pc.toNat → step s = .next s) ∧
    (s.fault.cause = .noFault → s.pc = 0x0FFF → step s = .next { p with fault := ⟨.fetchBounds, 0x0FFF, 0x0000⟩ }) ∧
    (s.fault.cause = .noFault → s.pc.toNat ≤ 0x0FFE →
      ∀ w : Word, w = Memory.get s.mem s.pc.toNat ++ Memory.get s.mem (s.pc.toNat + 1) →
        (∀ e, decodeWord w = .error e → step s = .next { p with events := .unknownOpcode w s.pc :: p.events }) ∧
        ∀ i : Instr, decodeWord w = .ok i → step s = exec i p)

/-- The fetched word is the two bytes at `pc`, the first the high one, at any `pc` up to 0x0FFE, odd or even (R44, R46, R84). -/
def Obligations.FetchIsBigEndianAtAnyAlignment : Prop :=
  ∀ s : State, s.pc.toNat ≤ 0x0FFE → ∃ w : Word, fetchWord s = some w ∧
    w.toNat = (Memory.get s.mem s.pc.toNat).toNat * 256 + (Memory.get s.mem (s.pc.toNat + 1)).toNat

/-- Every Step answers a next state. -/
def Obligations.EveryStepAnswersANextState : Prop := ∀ s : State, ∃ t : State, step s = .next t

/-- A halted or faulted machine: a Step changes nothing at all, and no sequence of host actions without a reset ends the condition (R81). -/
def Obligations.HaltAndFaultAreNoOpsUntilReset : Prop :=
  ∀ s : State, s.fault.cause ≠ .noFault ∨ 0x0FFF < s.pc.toNat →
    step s = .next s ∧
    ∀ as : List HostAction, NoReset as → ∃ t : State, hostRun as s = .next t ∧
      t.pc = s.pc ∧ t.fault = s.fault ∧ UnchangedBut [.keys, .redraw] s t

/-- The tick counts every Step that passes the guard, whatever it then does, and nothing reads it (R82). -/
def Obligations.TickCountsStepsAndIsReadByNothing : Prop :=
  ∀ (s : State) (k : BitVec 64),
    (guardStops s = true → step s = .next s) ∧
    (guardStops s = false → ∃ t : State, step s = .next t ∧ t.tick = s.tick + 1 ∧
      step { s with tick := k } = .next { t with tick := k + 1 })

/-- The timers in a Step that passes the guard: each loses one and stops at 0, unless the Step executes the instruction that writes it; a beep
exactly when the sound timer was nonzero before, and no other event but the report of an unknown opcode; the executed instruction reads the
timer already counted down, and what it writes is not yet counted down (R83). -/
def Obligations.TimersLoseOnePerStepBeforeTheInstruction : Prop :=
  ∀ s t : State, guardStops s = false → step s = .next t →
    (∀ x, fetchedInstr s = some (.setDelayTimerValue x) → (t.getV x).toNat = s.dt.toNat - 1) ∧
    (∀ x, fetchedInstr s = some (.setDelayTimerRegister x) → t.dt = s.getV x) ∧
    (∀ x, fetchedInstr s = some (.setSoundTimerRegister x) → t.st = s.getV x) ∧
    ((∀ x, fetchedInstr s ≠ some (.setDelayTimerRegister x)) → t.dt.toNat = s.dt.toNat - 1) ∧
    ((∀ x, fetchedInstr s ≠ some (.setSoundTimerRegister x)) → t.st.toNat = s.st.toNat - 1) ∧
    (s.st = 0 → t.events = s.events ∨ ∃ w pc, t.events = .unknownOpcode w pc :: s.events) ∧
    (s.st ≠ 0 → t.events = .beep :: s.events ∨ ∃ w pc, t.events = .unknownOpcode w pc :: .beep :: s.events)

/-- An unknown opcode: the report with the word and `pc`, nothing else beyond the first phases, and the next Step reports it again (R170). -/
def Obligations.UnknownOpcodeIsReportedAndHolds : Prop :=
  ∀ (s : State) (w : Word), guardStops s = false → fetchWord s = some w → decodeWord w = .error (.unknownOpcode (fieldsOf w)) →
    ∃ t u : State, step s = .next t ∧ t = { phases s with events := .unknownOpcode w s.pc :: (phases s).events } ∧
      step t = .next u ∧ u.pc = s.pc ∧ u.fault = s.fault ∧ u.events.head? = some (.unknownOpcode w s.pc)

/-- FETCH_BOUNDS: at `pc = 0x0FFF` nothing is fetched or executed; the record, and the first phases, are all that changes; at no other `pc` does
a Step raise it (R162). -/
def Obligations.FetchAtTheLastByteFaults : Prop :=
  ∀ s : State, s.fault.cause = .noFault →
    (s.pc = 0x0FFF → ∃ t : State, step s = .next t ∧ t.fault = ⟨.fetchBounds, 0x0FFF, 0x0000⟩ ∧ t.pc = s.pc ∧
      UnchangedBut [.tick, .delayTimer, .soundTimer, .events, .faultRecord] s t) ∧
    ∀ t : State, step s = .next t → t.fault.cause = .fetchBounds → s.pc = 0x0FFF

/-- Faults of the execute phase: raised exactly when due, by the instructions of R161's table, with nothing else written (R161, R88). -/
def Obligations.FaultsAreRaisedExactlyWhenDue : Prop :=
  ∀ (i : Instr) (s : State), ∃ t : State, exec i s = .next t ∧
    (causeDue i s = .noFault → t.fault = s.fault) ∧
    (causeDue i s ≠ .noFault → canRaise i (causeDue i s) ∧ t = { s with fault := ⟨causeDue i s, s.pc, encodeWord i⟩ })

/-- The codes of the causes (R161). -/
def Obligations.FaultCodesAreTheTables : Prop :=
  FaultCause.code .noFault = 0 ∧ FaultCause.code .fetchBounds = 1 ∧ FaultCause.code .dataBounds = 2 ∧ FaultCause.code .stackOverflow = 3 ∧
  FaultCause.code .stackUnderflow = 4 ∧ FaultCause.code .keyIndexRange = 5 ∧ FaultCause.code .returnAddressRange = 6 ∧
  ∀ c : FaultCause, c.code ≠ 7

/-- A Step that latches a fault: the record holds the `pc` of the Step and the fetched word, 0 when none was; beyond the first phases nothing else
changed (R88, R168). -/
def Obligations.FaultingStepLatchesPcAndWord : Prop :=
  ∀ s t : State, guardStops s = false → step s = .next t → t.fault.cause ≠ .noFault →
    t = { phases s with fault := t.fault } ∧ t.faulted = true ∧ t.fault.pc = s.pc ∧ t.fault.opcode = (fetchWord s).getD 0x0000 ∧
    (t.fault.cause = .fetchBounds ↔ s.pc = 0x0FFF)

/-- A fault is final: under any host actions without a reset the record stays, and only the keys and the redraw flag can change; a reset clears
it (R169). -/
def Obligations.FaultIsFinalUntilReset : Prop :=
  ∀ s : State, s.fault.cause ≠ .noFault →
    (∀ as : List HostAction, NoReset as → ∃ t : State, hostRun as s = .next t ∧ t.fault = s.fault ∧ UnchangedBut [.keys, .redraw] s t) ∧
    ∀ image : List Byte, image.length ≤ 3584 → ∃ t : State, hostAct (.reset image) s = .next t ∧ t.fault.cause = .noFault

/-- Each part of the state but the registers and `pc` is changed only by the instructions the state table names (10_state.md section 1;
the draws and the events are the model's own parts, log 1 and log 2). -/
def Obligations.StateIsWrittenOnlyByTheNamedInstructions : Prop :=
  ∀ (i : Instr) (s t : State) (p : Part), exec i s = .next t → ¬mayWrite p i → p.same s t

/-- A register changes only in an instruction that has it as a destination or, for VF, writes the flag (10_state.md section 2, R11). -/
def Obligations.RegistersAreWrittenOnlyByTheirInstructions : Prop :=
  ∀ (i : Instr) (s t : State) (r : Reg), exec i s = .next t → ¬mayWriteReg i r → t.getV r = s.getV r

/-- Every instruction that does not fault moves `pc` as its class says (R86). -/
def Obligations.PcMovesByClass : Prop :=
  ∀ (i : Instr) (s t : State), causeDue i s = .noFault → exec i s = .next t → (pcClass i s).holds s t

/-- The machine comes to be halted only by running or skipping off the end of memory, or by JumpTo; never by Jump, Call or Return (R171).
That a skip taken from 0x0FFD halts at 0x1001 is read from R86: R171's list leaves it out (log 12). -/
def Obligations.HaltIsReachedOnlyOffTheEnd : Prop :=
  ∀ s t : State, guardStops s = false → step s = .next t → 0x0FFF < t.pc.toNat →
    (s.pc = 0x0FFE ∧ t.pc = 0x1000) ∨ (s.pc = 0x0FFE ∧ t.pc = 0x1002) ∨ (s.pc = 0x0FFC ∧ t.pc = 0x1000) ∨
    (s.pc = 0x0FFD ∧ t.pc = 0x1001) ∨
    ∃ nnn, fetchedInstr s = some (.jumpTo nnn) ∧ t.pc.toNat = (s.getV 0).toNat + nnn.toNat

/-- A Step that does not execute RandBitwiseAnd is a function of the state without the random source, and consumes none of it (R89; that the source
is read by number, from a field of the state, is the model's choice, log 1). -/
def Obligations.RandomSourceIsConsultedByOneInstruction : Prop :=
  ∀ (s : State) (k : Nat), (∀ x kk, fetchedInstr s ≠ some (.randBitwiseAnd x kk)) →
    ∃ t : State, step s = .next t ∧ t.rndIndex = s.rndIndex ∧ step { s with rndIndex := k } = .next { t with rndIndex := k }

/-! Invariant, reset, host. -/

/-- The invariant holds at reset (the form of memory is the model's, log 5). -/
def Obligations.ResetMeetsTheInvariant : Prop := Inv State.reset

/-- Every Step from a state that meets the invariant gives one that meets it: memory in canonical form, `pc` at most 0x10FE, a sound fault
record (the form of memory is the model's, log 5). -/
def Obligations.StepKeepsTheInvariant : Prop := ∀ s t : State, Inv s → step s = .next t → Inv t

/-- So does every action of the host, a reset with any image it may load included (the form of memory is the model's, log 5; the actions are the
model's functions beside the Step, log 9). -/
def Obligations.HostActionsKeepTheInvariant : Prop := ∀ (a : HostAction) (s t : State), Inv s → hostAct a s = .next t → Inv t

/-- What H-RESET leaves but memory, and what the first Step then fetches: the bytes at 0x200 and 0x201, the first two of the image (R191; the
stack entries and the rest of the fault record are rows of R26; the values are the spec's decisions D9, D22 and D23, log 6). -/
def Obligations.ResetLeavesTheInitialConditions : Prop :=
  ∀ (image : List Byte) (s : State), image.length ≤ 3584 →
    ∃ t : State, hostReset image s = .next t ∧ t.pc = 0x0200 ∧ t.sp.val = 0 ∧ (∀ k : Fin 16, t.stk[k.val] = 0) ∧
      (∀ k : Fin 16, t.keys.getLsbD k.val = false) ∧ t.dt = 0 ∧ t.st = 0 ∧ (∀ row col, pixel t.fb row col = false) ∧ t.redraw = false ∧
      (∀ r : Reg, t.getV r = 0) ∧ t.i = 0 ∧ t.fault = ⟨.noFault, 0, 0⟩ ∧ t.tick = 0 ∧
      fetchWord t = some (Memory.get t.mem 0x200 ++ Memory.get t.mem 0x201) ∧
      ∀ h : 2 ≤ image.length, fetchWord t = some (image[0] ++ image[1])

/-- Memory after H-RESET: the font, zeros, the image from 0x200, zeros (R192, R193). -/
def Obligations.ResetLoadsFontAndImage : Prop :=
  ∀ (image : List Byte) (s : State), image.length ≤ 3584 →
    ∃ t : State, hostReset image s = .next t ∧
      (∀ d k : Nat, d < 16 → k < 5 → some (Memory.get t.mem (5 * d + k)) = (fontTable[d]?).bind (fun g => g[k]?)) ∧
      (∀ a : Nat, 0x050 ≤ a → a ≤ 0x1FF → Memory.get t.mem a = 0) ∧
      (∀ k : Nat, ∀ h : k < image.length, Memory.get t.mem (0x200 + k) = image[k]) ∧
      (∀ a : Nat, 0x200 + image.length ≤ a → a ≤ 0x0FFF → Memory.get t.mem a = 0)

/-- The host's other actions: H-KEYS writes the keys and nothing else, H-ACK clears `redraw` and nothing else, H-READ-FB gives the framebuffer and
the flag and changes nothing (R2). -/
def Obligations.HostActionsTouchOnlyTheirOwnState : Prop :=
  ∀ (s : State) (k : BitVec 16),
    (∃ t : State, hostAct (.keys k) s = .next t ∧ (∀ j : Fin 16, t.keyDown j = k.getLsbD j.val) ∧ UnchangedBut [.keys] s t) ∧
    (∃ t : State, hostAct .ack s = .next t ∧ t.redraw = false ∧ UnchangedBut [.redraw] s t) ∧
    hostAct .readFb s = .next s ∧ hostReadFb s = (s.fb, s.redraw)

/-- Only the host's H-KEYS and H-RESET change the key flags; no Step does (R20). -/
def Obligations.NoStepWritesTheKeys : Prop := ∀ s t : State, step s = .next t → t.keys = s.keys
end

