-- ==== Sys2Proof/Laws/Decode.lean ====
section
/-! SUPPORT. The fields of a word, of an encoded word, and the word back from its fields; one lemma for the decoder. -/

namespace Sys2Proof

@[simp] theorem regOf_regField (r : Reg) : regOf (regField r) = r := rfl

@[simp] theorem regField_regOf (f : Nibble) : regField (regOf f) = f := rfl

/-- The fields of a word in format XY (R61, R62). -/
@[simp] theorem fieldsOf_formatXY (g x y n : Nibble) :
    fieldsOf (formatXY g x y n) = ⟨g, x ++ y ++ n, x, y, n, y ++ n⟩ := by
  simp only [fieldsOf, formatXY, Fields.mk.injEq]
  refine ⟨?_, ?_, ?_, ?_, ?_, ?_⟩ <;>
  · ext k hk
    simp only [BitVec.getElem_extractLsb', BitVec.getLsbD_append]
    grind

/-- The fields of a word in formats Z, XK and XF (R61, R62). -/
@[simp] theorem fieldsOf_formatXK (g x : Nibble) (kk : Byte) :
    fieldsOf (formatXK g x kk) = ⟨g, x ++ kk, x, kk.extractLsb' 4 4, kk.extractLsb' 0 4, kk⟩ := by
  simp only [fieldsOf, formatXK, Fields.mk.injEq]
  refine ⟨?_, ?_, ?_, ?_, ?_, ?_⟩ <;>
  · ext k hk
    simp only [BitVec.getElem_extractLsb', BitVec.getLsbD_append]
    grind

/-- The fields of a word in format A (R61, R62). -/
@[simp] theorem fieldsOf_formatA (g : Nibble) (nnn : Addr12) :
    fieldsOf (formatA g nnn) =
      ⟨g, nnn, nnn.extractLsb' 8 4, nnn.extractLsb' 4 4, nnn.extractLsb' 0 4, lowByte nnn⟩ := by
  simp only [fieldsOf, formatA, lowByte, Fields.mk.injEq]
  refine ⟨?_, ?_, ?_, ?_, ?_, ?_⟩ <;>
  · ext k hk
    simp only [BitVec.getElem_extractLsb', BitVec.getLsbD_append]
    grind

/-- A word is its four nibbles (R61). -/
theorem formatXY_fieldsOf (w : Word) :
    formatXY (fieldsOf w).group (fieldsOf w).x (fieldsOf w).y (fieldsOf w).n = w := by
  ext k hk
  simp only [fieldsOf, formatXY]
  grind

/-- A word is its group, `x` and `kk` (R61). -/
theorem formatXK_fieldsOf (w : Word) : formatXK (fieldsOf w).group (fieldsOf w).x (fieldsOf w).kk = w := by
  ext k hk
  simp only [fieldsOf, formatXK]
  grind

/-- A word is its group and `nnn` (R61). -/
theorem formatA_fieldsOf (w : Word) : formatA (fieldsOf w).group (fieldsOf w).nnn = w := by
  ext k hk
  simp only [fieldsOf, formatA]
  grind

/-- The bytes of a word, high byte first, make the word again (R44). -/
@[simp] theorem wordOfBytes_highByte_lowByte (w : Word) : wordOfBytes (highByte w) (lowByteOfWord w) = w := by
  ext k hk
  simp only [wordOfBytes, highByte, lowByteOfWord]
  grind

/-- The high byte of two bytes is the first, the low byte the second (R44). -/
@[simp] theorem highByte_wordOfBytes (hi lo : Byte) : highByte (wordOfBytes hi lo) = hi := by
  ext k hk
  simp only [wordOfBytes, highByte, BitVec.getElem_extractLsb', BitVec.getLsbD_append]
  grind

@[simp] theorem lowByteOfWord_wordOfBytes (hi lo : Byte) : lowByteOfWord (wordOfBytes hi lo) = lo := by
  ext k hk
  simp only [wordOfBytes, lowByteOfWord, BitVec.getElem_extractLsb', BitVec.getLsbD_append]
  grind

/-- The number two bytes make, the first the high one (R44). -/
theorem toNat_wordOfBytes (hi lo : Byte) : (wordOfBytes hi lo).toNat = hi.toNat * 256 + lo.toNat := by
  simp only [wordOfBytes, BitVec.toNat_append]
  rw [← Nat.shiftLeft_add_eq_or_of_lt lo.isLt, Nat.shiftLeft_eq]

/-- All that decoding a word can do: the first row its fields select makes the instruction, or no row is selected (R64, R71). -/
theorem decodeWord_cases (w : Word) :
    (∃ r ∈ opcodeTable, r.selects (fieldsOf w) = true ∧ decodeWord w = .ok (r.make (fieldsOf w))) ∨
      ((∀ r ∈ opcodeTable, r.selects (fieldsOf w) = false) ∧ decodeWord w = .error (.unknownOpcode (fieldsOf w))) := by
  unfold decodeWord
  cases h : opcodeTable.find? (fun r => r.selects (fieldsOf w)) with
  | some r => exact .inl ⟨r, List.mem_of_find?_eq_some h, by simpa using List.find?_some h, rfl⟩
  | none => exact .inr ⟨by simpa using h, rfl⟩

/-- The row of the opcode map an instruction belongs to: its group and what selects it there. -/
def rowKey : Instr → Nibble × Selector
  | .clear _ => (0x0, .onKk 0xE0)
  | .ret _ => (0x0, .onKk 0xEE)
  | .jumpToMachineCode _ => (0x0, .any)
  | .jump _ => (0x1, .any)
  | .call _ => (0x2, .any)
  | .skipEqualLiteral _ _ => (0x3, .any)
  | .skipNotEqualLiteral _ _ => (0x4, .any)
  | .skipEqualRegister _ _ _ => (0x5, .any)
  | .registerSetLiteral _ _ => (0x6, .any)
  | .registerAddAssign _ _ => (0x7, .any)
  | .registerSetRegister _ _ => (0x8, .onN 0x0)
  | .bitwiseOr _ _ => (0x8, .onN 0x1)
  | .bitwiseAnd _ _ => (0x8, .onN 0x2)
  | .bitwiseXor _ _ => (0x8, .onN 0x3)
  | .registerSetRegisterAdd _ _ => (0x8, .onN 0x4)
  | .registerSetRegisterSub _ _ => (0x8, .onN 0x5)
  | .registerSetRegisterShr _ _ => (0x8, .onN 0x6)
  | .registerSetRegisterSubn _ _ => (0x8, .onN 0x7)
  | .registerSetRegisterShl _ _ => (0x8, .onN 0xE)
  | .skipNotEqualRegister _ _ _ => (0x9, .any)
  | .setIndex _ => (0xA, .any)
  | .jumpTo _ => (0xB, .any)
  | .randBitwiseAnd _ _ => (0xC, .any)
  | .drawSprite _ _ _ => (0xD, .any)
  | .skipNextKeyPressed _ => (0xE, .onKk 0x9E)
  | .skipNextKeyNotPressed _ => (0xE, .onKk 0xA1)
  | .setDelayTimerValue _ => (0xF, .onKk 0x07)
  | .keyPressWait _ => (0xF, .onKk 0x0A)
  | .setDelayTimerRegister _ => (0xF, .onKk 0x15)
  | .setSoundTimerRegister _ => (0xF, .onKk 0x18)
  | .indexAddAssignRegister _ => (0xF, .onKk 0x1E)
  | .setIndexToDigitSprite _ => (0xF, .onKk 0x29)
  | .storeBCDAtIndex _ => (0xF, .onKk 0x33)
  | .storeRegistersAtIndex _ => (0xF, .onKk 0x55)
  | .readRegistersAtIndex _ => (0xF, .onKk 0x65)

/-- Fields match a row's key. -/
def keyMatches (key : Nibble × Selector) (f : Fields) : Bool :=
  (Row.selects ⟨key.1, key.2, fun _ => .clear 0⟩) f

end Sys2Proof
end

