-- ==== Sys2Proof/Laws/Display.lean ====
section
/-! SUPPORT. The laws of the framebuffer: a pixel after an inversion, after one sprite pixel, and a framebuffer known by its pixels. -/

namespace Sys2Proof.Machine

/-- Inverting one pixel inverts it and leaves every other pixel alone (R143). -/
theorem pixel_flipPixel (fb : Framebuffer) (row row' : Fin 32) (col col' : Fin 64) :
    pixel (flipPixel fb row col) row' col' = (pixel fb row' col' ^^ decide (row' = row ∧ col' = col)) := by
  unfold pixel flipPixel
  by_cases hr : row' = row
  · subst hr
    simp [Fin.ext_iff, eq_comm]
  · have : row.val ≠ row'.val := fun h => hr (Fin.ext h.symm)
    simp [this, hr]

@[simp] theorem pixel_clearedFb (row : Fin 32) (col : Fin 64) : pixel clearedFb row col = false := by
  simp [pixel, clearedFb]

/-- One sprite pixel: where it lands is inverted when its bit is 1, and a lit pixel there is a collision (R143). -/
theorem pixel_drawPixel (vx vy : Byte) (r : Nat) (b : Byte) (acc : Framebuffer × Bool) (c : Nat) (row : Fin 32) (col : Fin 64) :
    pixel (drawPixel vx vy r b acc c).1 row col =
      (pixel acc.1 row col ^^ (spriteBit b c && decide (row = rowAt vy r ∧ col = colAt vx c))) := by
  unfold drawPixel
  split <;> simp_all [pixel_flipPixel]

theorem collision_drawPixel (vx vy : Byte) (r : Nat) (b : Byte) (acc : Framebuffer × Bool) (c : Nat) :
    (drawPixel vx vy r b acc c).2 = (acc.2 || (spriteBit b c && pixel acc.1 (rowAt vy r) (colAt vx c))) := by
  unfold drawPixel
  split <;> simp_all

/-- Two framebuffers with the same pixels are the same (R18). -/
theorem fb_ext {fb fb' : Framebuffer} (h : ∀ row col, pixel fb row col = pixel fb' row col) : fb = fb' := by
  ext k hk c hc
  simpa [pixel, BitVec.getElem_eq_testBit_toNat, BitVec.getLsbD] using h ⟨k, hk⟩ ⟨c, hc⟩

/-- One inversion with its collision. -/
def flipStep (acc : Framebuffer × Bool) (p : Fin 32 × Fin 64) : Framebuffer × Bool :=
  (flipPixel acc.1 p.1 p.2, acc.2 || pixel acc.1 p.1 p.2)

/-- The places the 1 bits of a sprite's rows land on, from row `r` on (R142). -/
def landings (vx vy : Byte) : Nat → List Byte → List (Fin 32 × Fin 64)
  | _, [] => []
  | r, b :: bs =>
    ((List.range 8).filter (spriteBit b)).map (fun c => (rowAt vy r, colAt vx c)) ++ landings vx vy (r + 1) bs

theorem foldl_drawPixel (vx vy : Byte) (r : Nat) (b : Byte) (cs : List Nat) (acc : Framebuffer × Bool) :
    cs.foldl (drawPixel vx vy r b) acc =
      ((cs.filter (spriteBit b)).map (fun c => (rowAt vy r, colAt vx c))).foldl flipStep acc := by
  induction cs generalizing acc with
  | nil => rfl
  | cons c cs ih =>
    rw [List.foldl_cons, ih, List.filter_cons]
    unfold drawPixel
    split <;> simp [flipStep]

/-- Drawing a sprite is inverting the places its 1 bits land on, one after the other. -/
theorem drawRows_eq_foldl (vx vy : Byte) (bs : List Byte) (r : Nat) (acc : Framebuffer × Bool) :
    drawRows vx vy r bs acc = (landings vx vy r bs).foldl flipStep acc := by
  induction bs generalizing r acc with
  | nil => rfl
  | cons b bs ih => rw [drawRows, ih, drawRow, foldl_drawPixel, landings, List.foldl_append]

theorem mem_landings (vx vy : Byte) (bs : List Byte) (r : Nat) (p : Fin 32 × Fin 64) :
    p ∈ landings vx vy r bs ↔
      ∃ k c : Nat, ∃ h : k < bs.length, c < 8 ∧ spriteBit bs[k] c = true ∧ p = (rowAt vy (r + k), colAt vx c) := by
  induction bs generalizing r with
  | nil => simp [landings]
  | cons b bs ih =>
    rw [landings, List.mem_append, ih]
    constructor
    · rintro (h | ⟨k, c, hk, hc, hb, rfl⟩)
      · obtain ⟨c, hc, rfl⟩ := List.mem_map.1 h
        rw [List.mem_filter, List.mem_range] at hc
        exact ⟨0, c, by simp, hc.1, hc.2, rfl⟩
      · exact ⟨k + 1, c, by simpa using hk, hc, by simpa using hb, by rw [Nat.add_right_comm, Nat.add_assoc]⟩
    · rintro ⟨k, c, hk, hc, hb, rfl⟩
      cases k with
      | zero =>
        exact .inl (List.mem_map.2 ⟨c, List.mem_filter.2 ⟨List.mem_range.2 hc, by simpa using hb⟩, rfl⟩)
      | succ k =>
        exact .inr ⟨k, c, by simpa using hk, hc, by simpa using hb, by rw [Nat.add_right_comm, Nat.add_assoc]⟩

/-- No two bits of a sprite of at most 32 rows land on the same pixel (R143). -/
theorem landings_nodup (vx vy : Byte) (bs : List Byte) (r : Nat) (h : bs.length ≤ 32) : (landings vx vy r bs).Nodup := by
  induction bs generalizing r with
  | nil => exact List.nodup_nil
  | cons b bs ih =>
    rw [List.length_cons] at h
    refine List.nodup_append'.2 ⟨?_, ih (r + 1) (by omega), fun p hp hq => ?_⟩
    · refine (List.nodup_map_iff_inj_on (List.nodup_range.filter _)).2 fun c hc c' hc' he => ?_
      rw [List.mem_filter, List.mem_range] at hc hc'
      have := congrArg (fun q : Fin 32 × Fin 64 => q.2.val) he
      simp only [colAt] at this
      omega
    · obtain ⟨c, -, rfl⟩ := List.mem_map.1 hp
      obtain ⟨k, c', hk, -, -, he⟩ := (mem_landings ..).1 hq
      have := congrArg (fun q : Fin 32 × Fin 64 => q.1.val) he
      simp only [rowAt] at this
      omega

/-- Inverting places no two of which are the same: each is inverted, the rest are not, and a collision is a place that was lit at the start. -/
theorem foldl_flipStep (ps : List (Fin 32 × Fin 64)) (h : ps.Nodup) (acc : Framebuffer × Bool) :
    (∀ row col, pixel (ps.foldl flipStep acc).1 row col = (pixel acc.1 row col ^^ decide ((row, col) ∈ ps))) ∧
      ((ps.foldl flipStep acc).2 = true ↔ acc.2 = true ∨ ∃ p ∈ ps, pixel acc.1 p.1 p.2 = true) := by
  induction ps generalizing acc with
  | nil => simp
  | cons p ps ih =>
    obtain ⟨hp, hps⟩ := List.nodup_cons.1 h
    obtain ⟨ih1, ih2⟩ := ih hps (flipStep acc p)
    refine ⟨fun row col => ?_, ?_⟩
    · rw [List.foldl_cons, ih1]
      simp only [flipStep, pixel_flipPixel]
      by_cases he : (row, col) = p
      · subst he; simp [hp]
      · have : ¬(row = p.1 ∧ col = p.2) := fun hh => he (Prod.ext hh.1 hh.2)
        simp [he, this]
    · rw [List.foldl_cons, ih2]
      have hother : ∀ q ∈ ps, pixel (flipStep acc p).1 q.1 q.2 = pixel acc.1 q.1 q.2 := fun q hq => by
        have : ¬(q.1 = p.1 ∧ q.2 = p.2) := fun hh => hp (Prod.ext hh.1 hh.2 ▸ hq)
        simp [flipStep, pixel_flipPixel, this]
      constructor
      · rintro (h1 | ⟨q, hq, h1⟩)
        · rcases (Bool.or_eq_true _ _).mp h1 with h1 | h1
          · exact .inl h1
          · exact .inr ⟨p, List.mem_cons_self, h1⟩
        · exact .inr ⟨q, List.mem_cons_of_mem _ hq, hother q hq ▸ h1⟩
      · rintro (h1 | ⟨q, hq, h1⟩)
        · exact .inl (by simp [flipStep, h1])
        · rcases List.mem_cons.1 hq with rfl | hq
          · exact .inl (by simp [flipStep, h1])
          · exact .inr ⟨q, hq, (hother q hq).symm ▸ h1⟩

/-- All that drawing a sprite does to the pixels (R142, R143). -/
theorem pixel_drawSprite (vx vy : Byte) (rows : List Byte) (fb : Framebuffer) (h : rows.length ≤ 32) (row : Fin 32) (col : Fin 64) :
    pixel (drawSprite vx vy rows fb).1 row col = (pixel fb row col ^^ decide ((row, col) ∈ landings vx vy 0 rows)) := by
  rw [drawSprite, drawRows_eq_foldl]
  exact (foldl_flipStep _ (landings_nodup vx vy rows 0 h) _).1 row col

/-- The collision flag: some place the sprite lands on was lit (R143). -/
theorem collision_drawSprite (vx vy : Byte) (rows : List Byte) (fb : Framebuffer) (h : rows.length ≤ 32) :
    (drawSprite vx vy rows fb).2 = true ↔ ∃ p ∈ landings vx vy 0 rows, pixel fb p.1 p.2 = true := by
  rw [drawSprite, drawRows_eq_foldl, (foldl_flipStep _ (landings_nodup vx vy rows 0 h) _).2]
  simp

end Sys2Proof.Machine
end

