-- ==== Sys2Proof/Laws/Memory.lean ====
section
/-! SUPPORT. The laws of memory: read after write, the canonical form kept by every operation, and one lemma for each access primitive. -/

namespace Sys2Proof.Machine

@[simp] theorem get_nil (a : Nat) : Memory.get [] a = background a := rfl

theorem get_cons (a' : Nat) (b : Byte) (m : Memory) (a : Nat) :
    Memory.get ((a', b) :: m) a = if a = a' then b else Memory.get m a := rfl

theorem get_put_self (a : Nat) (b : Byte) (m : Memory) (h : Memory.get m a = background a) :
    Memory.get (Memory.put a b m) a = b := by
  unfold Memory.put; split <;> simp_all [get_cons]

theorem get_put_other {a c : Nat} (h : c ≠ a) (b : Byte) (m : Memory) :
    Memory.get (Memory.put a b m) c = Memory.get m c := by
  unfold Memory.put; split <;> simp [get_cons, h]

theorem wfFrom_cons (lo a : Nat) (b : Byte) (m : Memory) :
    Memory.wfFrom lo ((a, b) :: m) = true ↔
      lo ≤ a ∧ a < 4096 ∧ b ≠ background a ∧ Memory.wfFrom (a + 1) m = true := by
  simp [Memory.wfFrom, and_assoc]

theorem wfFrom_mono {lo lo' : Nat} (h : lo' ≤ lo) : ∀ {m : Memory}, Memory.wfFrom lo m = true → Memory.wfFrom lo' m = true
  | [], _ => rfl
  | (a, b) :: m, hm => by
    rw [wfFrom_cons] at hm ⊢
    exact ⟨by omega, hm.2⟩

/-- Below its first address a canonical memory reads as nothing written. -/
theorem get_of_lt {lo : Nat} : ∀ {m : Memory}, Memory.wfFrom lo m = true → ∀ {a : Nat}, a < lo → Memory.get m a = background a
  | [], _, _, _ => rfl
  | (a', b) :: m, hm, a, ha => by
    rw [wfFrom_cons] at hm
    rw [get_cons, if_neg (by omega)]
    exact get_of_lt hm.2.2.2 (by omega)

theorem wfFrom_put {lo a : Nat} {b : Byte} {m : Memory} (hlo : lo ≤ a) (ha : a < 4096)
    (hm : Memory.wfFrom (a + 1) m = true) : Memory.wfFrom lo (Memory.put a b m) = true := by
  unfold Memory.put
  split
  · exact wfFrom_mono (by omega) hm
  · exact (wfFrom_cons ..).2 ⟨hlo, ha, ‹_›, hm⟩

/-- A write keeps the canonical form. -/
theorem wfFrom_set {lo a : Nat} {b : Byte} (hlo : lo ≤ a) (ha : a < 4096) :
    ∀ {m : Memory}, Memory.wfFrom lo m = true → Memory.wfFrom lo (Memory.set m a b) = true
  | [], _ => wfFrom_put hlo ha rfl
  | (a', b') :: m, hm => by
    have h := (wfFrom_cons ..).1 hm
    unfold Memory.set
    split
    · exact wfFrom_put hlo ha ((wfFrom_cons ..).2 ⟨by omega, h.2⟩)
    split
    · subst_vars; exact wfFrom_put hlo ha h.2.2.2
    · exact (wfFrom_cons ..).2 ⟨h.1, h.2.1, h.2.2.1, wfFrom_set (by omega) ha h.2.2.2⟩

/-- A write is read back at its address, and every other address reads as before. -/
theorem get_set {lo : Nat} {b : Byte} {a : Nat} : ∀ {m : Memory}, Memory.wfFrom lo m = true → ∀ (c : Nat),
    Memory.get (Memory.set m a b) c = if c = a then b else Memory.get m c
  | [], _, c => by
    by_cases hc : c = a
    · subst hc; simpa [Memory.set] using get_put_self c b [] rfl
    · simpa [Memory.set, hc] using get_put_other hc b []
  | (a', b') :: m, hm, c => by
    have h := (wfFrom_cons ..).1 hm
    unfold Memory.set
    split
    · by_cases hc : c = a
      · subst hc
        rw [if_pos rfl]
        exact get_put_self _ _ _ (get_of_lt (lo := a') ((wfFrom_cons ..).2 ⟨le_rfl, h.2⟩) ‹_›)
      · rw [get_put_other hc, if_neg hc]
    split
    · subst_vars
      by_cases hc : c = a'
      · subst hc
        rw [if_pos rfl]
        exact get_put_self _ _ _ (get_of_lt h.2.2.2 (by omega))
      · rw [get_put_other hc, get_cons, if_neg hc, if_neg hc]
    · rw [get_cons, get_cons, get_set h.2.2.2 c]
      by_cases hc : c = a'
      · subst hc; rw [if_pos rfl, if_pos rfl, if_neg (by omega)]
      · simp [hc]

theorem wf_reset : Memory.wf State.reset.mem = true := rfl

theorem wf_set {m : Memory} (hm : Memory.wf m = true) {a : Nat} (ha : a < 4096) (b : Byte) :
    Memory.wf (Memory.set m a b) = true := wfFrom_set (Nat.zero_le _) ha hm

/-- A store of bytes within memory keeps the canonical form. -/
theorem wf_setBytes {m : Memory} (hm : Memory.wf m = true) {a : Nat} {bs : List Byte} (h : a + bs.length ≤ 4096) :
    Memory.wf (Memory.setBytes m a bs) = true := by
  induction bs generalizing m a with
  | nil => exact hm
  | cons b bs ih =>
    rw [List.length_cons] at h
    exact ih (wf_set hm (by omega) b) (by omega)

/-- Each byte of a store is read back at its own address, and every other address reads as before. -/
theorem get_setBytes {m : Memory} (hm : Memory.wf m = true) {a : Nat} {bs : List Byte} (h : a + bs.length ≤ 4096) (c : Nat) :
    Memory.get (Memory.setBytes m a bs) c =
      if hc : a ≤ c ∧ c < a + bs.length then bs[c - a] else Memory.get m c := by
  induction bs generalizing m a with
  | nil =>
    rw [dif_neg (by simp)]; rfl
  | cons b bs ih =>
    rw [List.length_cons] at h
    have hs := ih (wf_set hm (a := a) (by omega) b) (a := a + 1) (by omega)
    rw [Memory.setBytes, hs, get_set hm]
    by_cases h1 : a + 1 ≤ c ∧ c < a + 1 + bs.length
    · have h2 : a ≤ c ∧ c < a + (bs.length + 1) := by omega
      simp only [h1, and_self, dite_true, List.length_cons, h2]
      have : c - a = (c - (a + 1)) + 1 := by omega
      simp [this]
    · by_cases h3 : c = a
      · subst h3; simp
      · have h2 : ¬(a ≤ c ∧ c < a + (bs.length + 1)) := by omega
        rw [dif_neg h1, if_neg h3, dif_neg (by simpa using h2)]

@[simp] theorem length_bytes (m : Memory) (a n : Nat) : (Memory.bytes m a n).length = n := by
  induction n generalizing a with
  | zero => rfl
  | succ n ih => simp [Memory.bytes, ih]

@[simp] theorem getElem_bytes (m : Memory) (a n k : Nat) (h : k < (Memory.bytes m a n).length) :
    (Memory.bytes m a n)[k] = Memory.get m (a + k) := by
  induction n generalizing a k with
  | zero => simp at h
  | succ n ih =>
    cases k with
    | zero => rfl
    | succ k =>
      simp only [Memory.bytes, List.getElem_cons_succ]
      rw [ih, show a + 1 + k = a + (k + 1) by omega]

theorem inRange_iff (a n : Nat) : inRange a n = true ↔ n = 0 ∨ a + n ≤ 4096 := by
  simp only [inRange, Bool.or_eq_true, decide_eq_true_eq]; omega

/-- All that `memRead` can do (R41). -/
theorem memRead_cases (m : Memory) (a n : Nat) :
    (inRange a n = true ∧ memRead m a n = some (Memory.bytes m a n)) ∨ (inRange a n = false ∧ memRead m a n = none) := by
  cases h : inRange a n <;> simp [memRead, h]

/-- All that `memWrite` can do (R42). -/
theorem memWrite_cases (m : Memory) (a : Nat) (bs : List Byte) :
    (inRange a bs.length = true ∧ memWrite m a bs = some (Memory.setBytes m a bs)) ∨
      (inRange a bs.length = false ∧ memWrite m a bs = none) := by
  cases h : inRange a bs.length <;> simp [memWrite, h]

/-- A store that does not fault keeps the canonical form. -/
theorem wf_memWrite {m m' : Memory} (hm : Memory.wf m = true) {a : Nat} {bs : List Byte} (h : memWrite m a bs = some m') :
    Memory.wf m' = true := by
  obtain ⟨hr, he⟩ | ⟨-, he⟩ := memWrite_cases m a bs
  · rw [he, Option.some.injEq] at h
    subst h
    obtain h0 | h1 := (inRange_iff ..).1 hr
    · rw [List.length_eq_zero_iff] at h0; subst h0; exact hm
    · exact wf_setBytes hm h1
  · simp [he] at h

/-- The word placed for the next fetch keeps the canonical form. -/
theorem wf_placeWord (w : Word) (s : State) (h : Memory.wf s.mem = true) : Memory.wf (placeWord w s).mem = true := by
  unfold placeWord
  split
  · exact wf_setBytes h (by simp; omega)
  · exact h

end Sys2Proof.Machine
end

