-- ==== Sys2Proof/Laws/State.lean ====
section
/-! SUPPORT. One lemma per field per update of the state, all true by definition, so that no proof unfolds a record update. -/

namespace Sys2Proof.Machine

@[simp] theorem setV_v (s : State) (r : Reg) (b : Byte) : (s.setV r b).v = s.v.set r.val b := rfl
@[simp] theorem setV_i (s : State) (r : Reg) (b : Byte) : (s.setV r b).i = s.i := rfl
@[simp] theorem setV_pc (s : State) (r : Reg) (b : Byte) : (s.setV r b).pc = s.pc := rfl
@[simp] theorem setV_sp (s : State) (r : Reg) (b : Byte) : (s.setV r b).sp = s.sp := rfl
@[simp] theorem setV_stk (s : State) (r : Reg) (b : Byte) : (s.setV r b).stk = s.stk := rfl
@[simp] theorem setV_dt (s : State) (r : Reg) (b : Byte) : (s.setV r b).dt = s.dt := rfl
@[simp] theorem setV_st (s : State) (r : Reg) (b : Byte) : (s.setV r b).st = s.st := rfl
@[simp] theorem setV_fb (s : State) (r : Reg) (b : Byte) : (s.setV r b).fb = s.fb := rfl
@[simp] theorem setV_redraw (s : State) (r : Reg) (b : Byte) : (s.setV r b).redraw = s.redraw := rfl
@[simp] theorem setV_keys (s : State) (r : Reg) (b : Byte) : (s.setV r b).keys = s.keys := rfl
@[simp] theorem setV_mem (s : State) (r : Reg) (b : Byte) : (s.setV r b).mem = s.mem := rfl
@[simp] theorem setV_tick (s : State) (r : Reg) (b : Byte) : (s.setV r b).tick = s.tick := rfl
@[simp] theorem setV_fault (s : State) (r : Reg) (b : Byte) : (s.setV r b).fault = s.fault := rfl
@[simp] theorem setV_rndIndex (s : State) (r : Reg) (b : Byte) : (s.setV r b).rndIndex = s.rndIndex := rfl
@[simp] theorem setV_events (s : State) (r : Reg) (b : Byte) : (s.setV r b).events = s.events := rfl

@[simp] theorem setRegs_v (s : State) (v : Vector Byte 16) : (s.setRegs v).v = v := rfl
@[simp] theorem setRegs_i (s : State) (v : Vector Byte 16) : (s.setRegs v).i = s.i := rfl
@[simp] theorem setRegs_pc (s : State) (v : Vector Byte 16) : (s.setRegs v).pc = s.pc := rfl
@[simp] theorem setRegs_sp (s : State) (v : Vector Byte 16) : (s.setRegs v).sp = s.sp := rfl
@[simp] theorem setRegs_stk (s : State) (v : Vector Byte 16) : (s.setRegs v).stk = s.stk := rfl
@[simp] theorem setRegs_dt (s : State) (v : Vector Byte 16) : (s.setRegs v).dt = s.dt := rfl
@[simp] theorem setRegs_st (s : State) (v : Vector Byte 16) : (s.setRegs v).st = s.st := rfl
@[simp] theorem setRegs_fb (s : State) (v : Vector Byte 16) : (s.setRegs v).fb = s.fb := rfl
@[simp] theorem setRegs_redraw (s : State) (v : Vector Byte 16) : (s.setRegs v).redraw = s.redraw := rfl
@[simp] theorem setRegs_keys (s : State) (v : Vector Byte 16) : (s.setRegs v).keys = s.keys := rfl
@[simp] theorem setRegs_mem (s : State) (v : Vector Byte 16) : (s.setRegs v).mem = s.mem := rfl
@[simp] theorem setRegs_tick (s : State) (v : Vector Byte 16) : (s.setRegs v).tick = s.tick := rfl
@[simp] theorem setRegs_fault (s : State) (v : Vector Byte 16) : (s.setRegs v).fault = s.fault := rfl
@[simp] theorem setRegs_rndIndex (s : State) (v : Vector Byte 16) : (s.setRegs v).rndIndex = s.rndIndex := rfl
@[simp] theorem setRegs_events (s : State) (v : Vector Byte 16) : (s.setRegs v).events = s.events := rfl

@[simp] theorem setI_v (s : State) (a : Word) : (s.setI a).v = s.v := rfl
@[simp] theorem setI_i (s : State) (a : Word) : (s.setI a).i = a := rfl
@[simp] theorem setI_pc (s : State) (a : Word) : (s.setI a).pc = s.pc := rfl
@[simp] theorem setI_sp (s : State) (a : Word) : (s.setI a).sp = s.sp := rfl
@[simp] theorem setI_stk (s : State) (a : Word) : (s.setI a).stk = s.stk := rfl
@[simp] theorem setI_dt (s : State) (a : Word) : (s.setI a).dt = s.dt := rfl
@[simp] theorem setI_st (s : State) (a : Word) : (s.setI a).st = s.st := rfl
@[simp] theorem setI_fb (s : State) (a : Word) : (s.setI a).fb = s.fb := rfl
@[simp] theorem setI_redraw (s : State) (a : Word) : (s.setI a).redraw = s.redraw := rfl
@[simp] theorem setI_keys (s : State) (a : Word) : (s.setI a).keys = s.keys := rfl
@[simp] theorem setI_mem (s : State) (a : Word) : (s.setI a).mem = s.mem := rfl
@[simp] theorem setI_tick (s : State) (a : Word) : (s.setI a).tick = s.tick := rfl
@[simp] theorem setI_fault (s : State) (a : Word) : (s.setI a).fault = s.fault := rfl
@[simp] theorem setI_rndIndex (s : State) (a : Word) : (s.setI a).rndIndex = s.rndIndex := rfl
@[simp] theorem setI_events (s : State) (a : Word) : (s.setI a).events = s.events := rfl
@[simp] theorem setI_getV (s : State) (a : Word) (q : Reg) : (s.setI a).getV q = s.getV q := rfl

@[simp] theorem setPc_v (s : State) (a : Word) : (s.setPc a).v = s.v := rfl
@[simp] theorem setPc_i (s : State) (a : Word) : (s.setPc a).i = s.i := rfl
@[simp] theorem setPc_pc (s : State) (a : Word) : (s.setPc a).pc = a := rfl
@[simp] theorem setPc_sp (s : State) (a : Word) : (s.setPc a).sp = s.sp := rfl
@[simp] theorem setPc_stk (s : State) (a : Word) : (s.setPc a).stk = s.stk := rfl
@[simp] theorem setPc_dt (s : State) (a : Word) : (s.setPc a).dt = s.dt := rfl
@[simp] theorem setPc_st (s : State) (a : Word) : (s.setPc a).st = s.st := rfl
@[simp] theorem setPc_fb (s : State) (a : Word) : (s.setPc a).fb = s.fb := rfl
@[simp] theorem setPc_redraw (s : State) (a : Word) : (s.setPc a).redraw = s.redraw := rfl
@[simp] theorem setPc_keys (s : State) (a : Word) : (s.setPc a).keys = s.keys := rfl
@[simp] theorem setPc_mem (s : State) (a : Word) : (s.setPc a).mem = s.mem := rfl
@[simp] theorem setPc_tick (s : State) (a : Word) : (s.setPc a).tick = s.tick := rfl
@[simp] theorem setPc_fault (s : State) (a : Word) : (s.setPc a).fault = s.fault := rfl
@[simp] theorem setPc_rndIndex (s : State) (a : Word) : (s.setPc a).rndIndex = s.rndIndex := rfl
@[simp] theorem setPc_events (s : State) (a : Word) : (s.setPc a).events = s.events := rfl
@[simp] theorem setPc_getV (s : State) (a : Word) (q : Reg) : (s.setPc a).getV q = s.getV q := rfl

@[simp] theorem setDt_v (s : State) (b : Byte) : (s.setDt b).v = s.v := rfl
@[simp] theorem setDt_i (s : State) (b : Byte) : (s.setDt b).i = s.i := rfl
@[simp] theorem setDt_pc (s : State) (b : Byte) : (s.setDt b).pc = s.pc := rfl
@[simp] theorem setDt_sp (s : State) (b : Byte) : (s.setDt b).sp = s.sp := rfl
@[simp] theorem setDt_stk (s : State) (b : Byte) : (s.setDt b).stk = s.stk := rfl
@[simp] theorem setDt_dt (s : State) (b : Byte) : (s.setDt b).dt = b := rfl
@[simp] theorem setDt_st (s : State) (b : Byte) : (s.setDt b).st = s.st := rfl
@[simp] theorem setDt_fb (s : State) (b : Byte) : (s.setDt b).fb = s.fb := rfl
@[simp] theorem setDt_redraw (s : State) (b : Byte) : (s.setDt b).redraw = s.redraw := rfl
@[simp] theorem setDt_keys (s : State) (b : Byte) : (s.setDt b).keys = s.keys := rfl
@[simp] theorem setDt_mem (s : State) (b : Byte) : (s.setDt b).mem = s.mem := rfl
@[simp] theorem setDt_tick (s : State) (b : Byte) : (s.setDt b).tick = s.tick := rfl
@[simp] theorem setDt_fault (s : State) (b : Byte) : (s.setDt b).fault = s.fault := rfl
@[simp] theorem setDt_rndIndex (s : State) (b : Byte) : (s.setDt b).rndIndex = s.rndIndex := rfl
@[simp] theorem setDt_events (s : State) (b : Byte) : (s.setDt b).events = s.events := rfl
@[simp] theorem setDt_getV (s : State) (b : Byte) (q : Reg) : (s.setDt b).getV q = s.getV q := rfl

@[simp] theorem setSt_v (s : State) (b : Byte) : (s.setSt b).v = s.v := rfl
@[simp] theorem setSt_i (s : State) (b : Byte) : (s.setSt b).i = s.i := rfl
@[simp] theorem setSt_pc (s : State) (b : Byte) : (s.setSt b).pc = s.pc := rfl
@[simp] theorem setSt_sp (s : State) (b : Byte) : (s.setSt b).sp = s.sp := rfl
@[simp] theorem setSt_stk (s : State) (b : Byte) : (s.setSt b).stk = s.stk := rfl
@[simp] theorem setSt_dt (s : State) (b : Byte) : (s.setSt b).dt = s.dt := rfl
@[simp] theorem setSt_st (s : State) (b : Byte) : (s.setSt b).st = b := rfl
@[simp] theorem setSt_fb (s : State) (b : Byte) : (s.setSt b).fb = s.fb := rfl
@[simp] theorem setSt_redraw (s : State) (b : Byte) : (s.setSt b).redraw = s.redraw := rfl
@[simp] theorem setSt_keys (s : State) (b : Byte) : (s.setSt b).keys = s.keys := rfl
@[simp] theorem setSt_mem (s : State) (b : Byte) : (s.setSt b).mem = s.mem := rfl
@[simp] theorem setSt_tick (s : State) (b : Byte) : (s.setSt b).tick = s.tick := rfl
@[simp] theorem setSt_fault (s : State) (b : Byte) : (s.setSt b).fault = s.fault := rfl
@[simp] theorem setSt_rndIndex (s : State) (b : Byte) : (s.setSt b).rndIndex = s.rndIndex := rfl
@[simp] theorem setSt_events (s : State) (b : Byte) : (s.setSt b).events = s.events := rfl
@[simp] theorem setSt_getV (s : State) (b : Byte) (q : Reg) : (s.setSt b).getV q = s.getV q := rfl

@[simp] theorem setMem_v (s : State) (m : Memory) : (s.setMem m).v = s.v := rfl
@[simp] theorem setMem_i (s : State) (m : Memory) : (s.setMem m).i = s.i := rfl
@[simp] theorem setMem_pc (s : State) (m : Memory) : (s.setMem m).pc = s.pc := rfl
@[simp] theorem setMem_sp (s : State) (m : Memory) : (s.setMem m).sp = s.sp := rfl
@[simp] theorem setMem_stk (s : State) (m : Memory) : (s.setMem m).stk = s.stk := rfl
@[simp] theorem setMem_dt (s : State) (m : Memory) : (s.setMem m).dt = s.dt := rfl
@[simp] theorem setMem_st (s : State) (m : Memory) : (s.setMem m).st = s.st := rfl
@[simp] theorem setMem_fb (s : State) (m : Memory) : (s.setMem m).fb = s.fb := rfl
@[simp] theorem setMem_redraw (s : State) (m : Memory) : (s.setMem m).redraw = s.redraw := rfl
@[simp] theorem setMem_keys (s : State) (m : Memory) : (s.setMem m).keys = s.keys := rfl
@[simp] theorem setMem_mem (s : State) (m : Memory) : (s.setMem m).mem = m := rfl
@[simp] theorem setMem_tick (s : State) (m : Memory) : (s.setMem m).tick = s.tick := rfl
@[simp] theorem setMem_fault (s : State) (m : Memory) : (s.setMem m).fault = s.fault := rfl
@[simp] theorem setMem_rndIndex (s : State) (m : Memory) : (s.setMem m).rndIndex = s.rndIndex := rfl
@[simp] theorem setMem_events (s : State) (m : Memory) : (s.setMem m).events = s.events := rfl
@[simp] theorem setMem_getV (s : State) (m : Memory) (q : Reg) : (s.setMem m).getV q = s.getV q := rfl

@[simp] theorem setDisplay_v (s : State) (fb : Framebuffer) : (s.setDisplay fb).v = s.v := rfl
@[simp] theorem setDisplay_i (s : State) (fb : Framebuffer) : (s.setDisplay fb).i = s.i := rfl
@[simp] theorem setDisplay_pc (s : State) (fb : Framebuffer) : (s.setDisplay fb).pc = s.pc := rfl
@[simp] theorem setDisplay_sp (s : State) (fb : Framebuffer) : (s.setDisplay fb).sp = s.sp := rfl
@[simp] theorem setDisplay_stk (s : State) (fb : Framebuffer) : (s.setDisplay fb).stk = s.stk := rfl
@[simp] theorem setDisplay_dt (s : State) (fb : Framebuffer) : (s.setDisplay fb).dt = s.dt := rfl
@[simp] theorem setDisplay_st (s : State) (fb : Framebuffer) : (s.setDisplay fb).st = s.st := rfl
@[simp] theorem setDisplay_fb (s : State) (fb : Framebuffer) : (s.setDisplay fb).fb = fb := rfl
@[simp] theorem setDisplay_redraw (s : State) (fb : Framebuffer) : (s.setDisplay fb).redraw = true := rfl
@[simp] theorem setDisplay_keys (s : State) (fb : Framebuffer) : (s.setDisplay fb).keys = s.keys := rfl
@[simp] theorem setDisplay_mem (s : State) (fb : Framebuffer) : (s.setDisplay fb).mem = s.mem := rfl
@[simp] theorem setDisplay_tick (s : State) (fb : Framebuffer) : (s.setDisplay fb).tick = s.tick := rfl
@[simp] theorem setDisplay_fault (s : State) (fb : Framebuffer) : (s.setDisplay fb).fault = s.fault := rfl
@[simp] theorem setDisplay_rndIndex (s : State) (fb : Framebuffer) : (s.setDisplay fb).rndIndex = s.rndIndex := rfl
@[simp] theorem setDisplay_events (s : State) (fb : Framebuffer) : (s.setDisplay fb).events = s.events := rfl
@[simp] theorem setDisplay_getV (s : State) (fb : Framebuffer) (q : Reg) : (s.setDisplay fb).getV q = s.getV q := rfl

@[simp] theorem setFlag_v (s : State) (f : Bool) : (s.setFlag f).v = s.v.set VF.val (flagByte f) := rfl
@[simp] theorem setFlag_i (s : State) (f : Bool) : (s.setFlag f).i = s.i := rfl
@[simp] theorem setFlag_pc (s : State) (f : Bool) : (s.setFlag f).pc = s.pc := rfl
@[simp] theorem setFlag_sp (s : State) (f : Bool) : (s.setFlag f).sp = s.sp := rfl
@[simp] theorem setFlag_stk (s : State) (f : Bool) : (s.setFlag f).stk = s.stk := rfl
@[simp] theorem setFlag_dt (s : State) (f : Bool) : (s.setFlag f).dt = s.dt := rfl
@[simp] theorem setFlag_st (s : State) (f : Bool) : (s.setFlag f).st = s.st := rfl
@[simp] theorem setFlag_fb (s : State) (f : Bool) : (s.setFlag f).fb = s.fb := rfl
@[simp] theorem setFlag_redraw (s : State) (f : Bool) : (s.setFlag f).redraw = s.redraw := rfl
@[simp] theorem setFlag_keys (s : State) (f : Bool) : (s.setFlag f).keys = s.keys := rfl
@[simp] theorem setFlag_mem (s : State) (f : Bool) : (s.setFlag f).mem = s.mem := rfl
@[simp] theorem setFlag_tick (s : State) (f : Bool) : (s.setFlag f).tick = s.tick := rfl
@[simp] theorem setFlag_fault (s : State) (f : Bool) : (s.setFlag f).fault = s.fault := rfl
@[simp] theorem setFlag_rndIndex (s : State) (f : Bool) : (s.setFlag f).rndIndex = s.rndIndex := rfl
@[simp] theorem setFlag_events (s : State) (f : Bool) : (s.setFlag f).events = s.events := rfl

@[simp] theorem setResultFlag_v (s : State) (r : Reg) (b : Byte) (f : Bool) : (s.setResultFlag r b f).v = (s.v.set r.val b).set VF.val (flagByte f) := rfl
@[simp] theorem setResultFlag_i (s : State) (r : Reg) (b : Byte) (f : Bool) : (s.setResultFlag r b f).i = s.i := rfl
@[simp] theorem setResultFlag_pc (s : State) (r : Reg) (b : Byte) (f : Bool) : (s.setResultFlag r b f).pc = s.pc := rfl
@[simp] theorem setResultFlag_sp (s : State) (r : Reg) (b : Byte) (f : Bool) : (s.setResultFlag r b f).sp = s.sp := rfl
@[simp] theorem setResultFlag_stk (s : State) (r : Reg) (b : Byte) (f : Bool) : (s.setResultFlag r b f).stk = s.stk := rfl
@[simp] theorem setResultFlag_dt (s : State) (r : Reg) (b : Byte) (f : Bool) : (s.setResultFlag r b f).dt = s.dt := rfl
@[simp] theorem setResultFlag_st (s : State) (r : Reg) (b : Byte) (f : Bool) : (s.setResultFlag r b f).st = s.st := rfl
@[simp] theorem setResultFlag_fb (s : State) (r : Reg) (b : Byte) (f : Bool) : (s.setResultFlag r b f).fb = s.fb := rfl
@[simp] theorem setResultFlag_redraw (s : State) (r : Reg) (b : Byte) (f : Bool) : (s.setResultFlag r b f).redraw = s.redraw := rfl
@[simp] theorem setResultFlag_keys (s : State) (r : Reg) (b : Byte) (f : Bool) : (s.setResultFlag r b f).keys = s.keys := rfl
@[simp] theorem setResultFlag_mem (s : State) (r : Reg) (b : Byte) (f : Bool) : (s.setResultFlag r b f).mem = s.mem := rfl
@[simp] theorem setResultFlag_tick (s : State) (r : Reg) (b : Byte) (f : Bool) : (s.setResultFlag r b f).tick = s.tick := rfl
@[simp] theorem setResultFlag_fault (s : State) (r : Reg) (b : Byte) (f : Bool) : (s.setResultFlag r b f).fault = s.fault := rfl
@[simp] theorem setResultFlag_rndIndex (s : State) (r : Reg) (b : Byte) (f : Bool) : (s.setResultFlag r b f).rndIndex = s.rndIndex := rfl
@[simp] theorem setResultFlag_events (s : State) (r : Reg) (b : Byte) (f : Bool) : (s.setResultFlag r b f).events = s.events := rfl

@[simp] theorem endInstr_v (s : State) : (s.endInstr).v = s.v := rfl
@[simp] theorem endInstr_i (s : State) : (s.endInstr).i = s.i := rfl
@[simp] theorem endInstr_pc (s : State) : (s.endInstr).pc = s.pc + 2 := rfl
@[simp] theorem endInstr_sp (s : State) : (s.endInstr).sp = s.sp := rfl
@[simp] theorem endInstr_stk (s : State) : (s.endInstr).stk = s.stk := rfl
@[simp] theorem endInstr_dt (s : State) : (s.endInstr).dt = s.dt := rfl
@[simp] theorem endInstr_st (s : State) : (s.endInstr).st = s.st := rfl
@[simp] theorem endInstr_fb (s : State) : (s.endInstr).fb = s.fb := rfl
@[simp] theorem endInstr_redraw (s : State) : (s.endInstr).redraw = s.redraw := rfl
@[simp] theorem endInstr_keys (s : State) : (s.endInstr).keys = s.keys := rfl
@[simp] theorem endInstr_mem (s : State) : (s.endInstr).mem = s.mem := rfl
@[simp] theorem endInstr_tick (s : State) : (s.endInstr).tick = s.tick := rfl
@[simp] theorem endInstr_fault (s : State) : (s.endInstr).fault = s.fault := rfl
@[simp] theorem endInstr_rndIndex (s : State) : (s.endInstr).rndIndex = s.rndIndex := rfl
@[simp] theorem endInstr_events (s : State) : (s.endInstr).events = s.events := rfl
@[simp] theorem endInstr_getV (s : State) (q : Reg) : (s.endInstr).getV q = s.getV q := rfl

@[simp] theorem skipInstr_v (s : State) (c : Bool) : (s.skipInstr c).v = s.v := rfl
@[simp] theorem skipInstr_i (s : State) (c : Bool) : (s.skipInstr c).i = s.i := rfl
@[simp] theorem skipInstr_pc (s : State) (c : Bool) : (s.skipInstr c).pc = s.pc + if c then 4 else 2 := rfl
@[simp] theorem skipInstr_sp (s : State) (c : Bool) : (s.skipInstr c).sp = s.sp := rfl
@[simp] theorem skipInstr_stk (s : State) (c : Bool) : (s.skipInstr c).stk = s.stk := rfl
@[simp] theorem skipInstr_dt (s : State) (c : Bool) : (s.skipInstr c).dt = s.dt := rfl
@[simp] theorem skipInstr_st (s : State) (c : Bool) : (s.skipInstr c).st = s.st := rfl
@[simp] theorem skipInstr_fb (s : State) (c : Bool) : (s.skipInstr c).fb = s.fb := rfl
@[simp] theorem skipInstr_redraw (s : State) (c : Bool) : (s.skipInstr c).redraw = s.redraw := rfl
@[simp] theorem skipInstr_keys (s : State) (c : Bool) : (s.skipInstr c).keys = s.keys := rfl
@[simp] theorem skipInstr_mem (s : State) (c : Bool) : (s.skipInstr c).mem = s.mem := rfl
@[simp] theorem skipInstr_tick (s : State) (c : Bool) : (s.skipInstr c).tick = s.tick := rfl
@[simp] theorem skipInstr_fault (s : State) (c : Bool) : (s.skipInstr c).fault = s.fault := rfl
@[simp] theorem skipInstr_rndIndex (s : State) (c : Bool) : (s.skipInstr c).rndIndex = s.rndIndex := rfl
@[simp] theorem skipInstr_events (s : State) (c : Bool) : (s.skipInstr c).events = s.events := rfl
@[simp] theorem skipInstr_getV (s : State) (c : Bool) (q : Reg) : (s.skipInstr c).getV q = s.getV q := rfl

@[simp] theorem raiseFault_v (c : FaultCause) (w : Word) (s : State) : (raiseFault c w s).v = s.v := rfl
@[simp] theorem raiseFault_i (c : FaultCause) (w : Word) (s : State) : (raiseFault c w s).i = s.i := rfl
@[simp] theorem raiseFault_pc (c : FaultCause) (w : Word) (s : State) : (raiseFault c w s).pc = s.pc := rfl
@[simp] theorem raiseFault_sp (c : FaultCause) (w : Word) (s : State) : (raiseFault c w s).sp = s.sp := rfl
@[simp] theorem raiseFault_stk (c : FaultCause) (w : Word) (s : State) : (raiseFault c w s).stk = s.stk := rfl
@[simp] theorem raiseFault_dt (c : FaultCause) (w : Word) (s : State) : (raiseFault c w s).dt = s.dt := rfl
@[simp] theorem raiseFault_st (c : FaultCause) (w : Word) (s : State) : (raiseFault c w s).st = s.st := rfl
@[simp] theorem raiseFault_fb (c : FaultCause) (w : Word) (s : State) : (raiseFault c w s).fb = s.fb := rfl
@[simp] theorem raiseFault_redraw (c : FaultCause) (w : Word) (s : State) : (raiseFault c w s).redraw = s.redraw := rfl
@[simp] theorem raiseFault_keys (c : FaultCause) (w : Word) (s : State) : (raiseFault c w s).keys = s.keys := rfl
@[simp] theorem raiseFault_mem (c : FaultCause) (w : Word) (s : State) : (raiseFault c w s).mem = s.mem := rfl
@[simp] theorem raiseFault_tick (c : FaultCause) (w : Word) (s : State) : (raiseFault c w s).tick = s.tick := rfl
@[simp] theorem raiseFault_fault (c : FaultCause) (w : Word) (s : State) : (raiseFault c w s).fault = ⟨c, s.pc, w⟩ := rfl
@[simp] theorem raiseFault_rndIndex (c : FaultCause) (w : Word) (s : State) : (raiseFault c w s).rndIndex = s.rndIndex := rfl
@[simp] theorem raiseFault_events (c : FaultCause) (w : Word) (s : State) : (raiseFault c w s).events = s.events := rfl
@[simp] theorem raiseFault_getV (c : FaultCause) (w : Word) (s : State) (q : Reg) : (raiseFault c w s).getV q = s.getV q := rfl

@[simp] theorem fetchFault_v (s : State) : (fetchFault s).v = s.v := rfl
@[simp] theorem fetchFault_i (s : State) : (fetchFault s).i = s.i := rfl
@[simp] theorem fetchFault_pc (s : State) : (fetchFault s).pc = s.pc := rfl
@[simp] theorem fetchFault_sp (s : State) : (fetchFault s).sp = s.sp := rfl
@[simp] theorem fetchFault_stk (s : State) : (fetchFault s).stk = s.stk := rfl
@[simp] theorem fetchFault_dt (s : State) : (fetchFault s).dt = s.dt := rfl
@[simp] theorem fetchFault_st (s : State) : (fetchFault s).st = s.st := rfl
@[simp] theorem fetchFault_fb (s : State) : (fetchFault s).fb = s.fb := rfl
@[simp] theorem fetchFault_redraw (s : State) : (fetchFault s).redraw = s.redraw := rfl
@[simp] theorem fetchFault_keys (s : State) : (fetchFault s).keys = s.keys := rfl
@[simp] theorem fetchFault_mem (s : State) : (fetchFault s).mem = s.mem := rfl
@[simp] theorem fetchFault_tick (s : State) : (fetchFault s).tick = s.tick := rfl
@[simp] theorem fetchFault_fault (s : State) : (fetchFault s).fault = ⟨.fetchBounds, s.pc, 0x0000⟩ := rfl
@[simp] theorem fetchFault_rndIndex (s : State) : (fetchFault s).rndIndex = s.rndIndex := rfl
@[simp] theorem fetchFault_events (s : State) : (fetchFault s).events = s.events := rfl
@[simp] theorem fetchFault_getV (s : State) (q : Reg) : (fetchFault s).getV q = s.getV q := rfl

@[simp] theorem reportUnknown_v (w : Word) (s : State) : (reportUnknown w s).v = s.v := rfl
@[simp] theorem reportUnknown_i (w : Word) (s : State) : (reportUnknown w s).i = s.i := rfl
@[simp] theorem reportUnknown_pc (w : Word) (s : State) : (reportUnknown w s).pc = s.pc := rfl
@[simp] theorem reportUnknown_sp (w : Word) (s : State) : (reportUnknown w s).sp = s.sp := rfl
@[simp] theorem reportUnknown_stk (w : Word) (s : State) : (reportUnknown w s).stk = s.stk := rfl
@[simp] theorem reportUnknown_dt (w : Word) (s : State) : (reportUnknown w s).dt = s.dt := rfl
@[simp] theorem reportUnknown_st (w : Word) (s : State) : (reportUnknown w s).st = s.st := rfl
@[simp] theorem reportUnknown_fb (w : Word) (s : State) : (reportUnknown w s).fb = s.fb := rfl
@[simp] theorem reportUnknown_redraw (w : Word) (s : State) : (reportUnknown w s).redraw = s.redraw := rfl
@[simp] theorem reportUnknown_keys (w : Word) (s : State) : (reportUnknown w s).keys = s.keys := rfl
@[simp] theorem reportUnknown_mem (w : Word) (s : State) : (reportUnknown w s).mem = s.mem := rfl
@[simp] theorem reportUnknown_tick (w : Word) (s : State) : (reportUnknown w s).tick = s.tick := rfl
@[simp] theorem reportUnknown_fault (w : Word) (s : State) : (reportUnknown w s).fault = s.fault := rfl
@[simp] theorem reportUnknown_rndIndex (w : Word) (s : State) : (reportUnknown w s).rndIndex = s.rndIndex := rfl
@[simp] theorem reportUnknown_events (w : Word) (s : State) : (reportUnknown w s).events = .unknownOpcode w s.pc :: s.events := rfl
@[simp] theorem reportUnknown_getV (w : Word) (s : State) (q : Reg) : (reportUnknown w s).getV q = s.getV q := rfl

@[simp] theorem phases_v (s : State) : (phases s).v = s.v := rfl
@[simp] theorem phases_i (s : State) : (phases s).i = s.i := rfl
@[simp] theorem phases_pc (s : State) : (phases s).pc = s.pc := rfl
@[simp] theorem phases_sp (s : State) : (phases s).sp = s.sp := rfl
@[simp] theorem phases_stk (s : State) : (phases s).stk = s.stk := rfl
@[simp] theorem phases_dt (s : State) : (phases s).dt = countDown s.dt := rfl
@[simp] theorem phases_st (s : State) : (phases s).st = countDown s.st := rfl
@[simp] theorem phases_fb (s : State) : (phases s).fb = s.fb := rfl
@[simp] theorem phases_redraw (s : State) : (phases s).redraw = s.redraw := rfl
@[simp] theorem phases_keys (s : State) : (phases s).keys = s.keys := rfl
@[simp] theorem phases_mem (s : State) : (phases s).mem = s.mem := rfl
@[simp] theorem phases_tick (s : State) : (phases s).tick = s.tick + 1 := rfl
@[simp] theorem phases_fault (s : State) : (phases s).fault = s.fault := rfl
@[simp] theorem phases_rndIndex (s : State) : (phases s).rndIndex = s.rndIndex := rfl
@[simp] theorem phases_events (s : State) : (phases s).events = if s.st = 0 then s.events else .beep :: s.events := rfl
@[simp] theorem phases_getV (s : State) (q : Reg) : (phases s).getV q = s.getV q := rfl

/-- A register reads the byte last written to it, and any other register as before. -/
@[simp] theorem setV_getV (s : State) (r q : Reg) (b : Byte) : (s.setV r b).getV q = if q = r then b else s.getV q := by
  simp only [State.getV, State.setV, Vector.getElem_set, Fin.ext_iff, eq_comm]

@[simp] theorem setFlag_getV (s : State) (f : Bool) (q : Reg) :
    (s.setFlag f).getV q = if q = VF then flagByte f else s.getV q := setV_getV s VF q _

/-- The registers after a load of several: one of the bytes, or the old value (R135). -/
@[simp] theorem setRegs_getV_loadRegs (s : State) (bs : List Byte) (v : Vector Byte 16) (q : Reg) :
    (s.setRegs (loadRegs bs v)).getV q = if h : q.val < bs.length then bs[q.val] else v[q.val] := by
  simp [State.getV, loadRegs]

/-- The flag is written last: with `r = VF` it is what remains (R87, R123). -/
@[simp] theorem setResultFlag_getV (s : State) (r q : Reg) (b : Byte) (f : Bool) :
    (s.setResultFlag r b f).getV q = if q = VF then flagByte f else if q = r then b else s.getV q := by
  simp [State.setResultFlag]

end Sys2Proof.Machine
end

