-- ==== Sys2Proof/Laws/Ops.lean ====
section
/-! SUPPORT. One lemma for each shared operation over registers, the stack, the keys and the phases of a Step. -/

namespace Sys2Proof.Machine

/-- All that `pushReturn` can do (R15, R93). -/
theorem pushReturn_cases (a : Addr12) (s : State) :
    (s.sp.val = 16 ∧ pushReturn a s = none) ∨
      ∃ h : s.sp.val < 16, pushReturn a s = some { s with stk := s.stk.set s.sp.val a, sp := ⟨s.sp.val + 1, by omega⟩ } := by
  by_cases h : s.sp.val < 16
  · exact .inr ⟨h, dif_pos h⟩
  · exact .inl ⟨by omega, dif_neg h⟩

/-- All that `popReturn` can do (R15, R91). -/
theorem popReturn_cases (s : State) :
    (s.sp.val = 0 ∧ popReturn s = none) ∨
      ∃ h : 0 < s.sp.val, popReturn s = some (s.stk[s.sp.val - 1], { s with sp := ⟨s.sp.val - 1, by omega⟩ }) := by
  by_cases h : 0 < s.sp.val
  · exact .inr ⟨h, dif_pos h⟩
  · exact .inl ⟨by omega, dif_neg h⟩

/-- All that `keyIndex` can do (R104, R167). -/
theorem keyIndex_cases (s : State) (r : Reg) :
    (15 < (s.getV r).toNat ∧ keyIndex s r = none) ∨
      ∃ h : (s.getV r).toNat < 16, keyIndex s r = some ⟨(s.getV r).toNat, h⟩ := by
  by_cases h : (s.getV r).toNat < 16
  · exact .inr ⟨h, dif_pos h⟩
  · exact .inl ⟨by omega, dif_neg h⟩

/-- All that the key scan can do: no key is down, or it answers the least key down (R151). -/
theorem firstKeyDown_cases (s : State) :
    ((∀ k, s.keyDown k = false) ∧ firstKeyDown s = none) ∨
      ∃ k, s.keyDown k = true ∧ (∀ j < k, s.keyDown j = false) ∧ firstKeyDown s = some k := by
  cases h : firstKeyDown s with
  | none =>
    left
    refine ⟨fun k => ?_, rfl⟩
    have := List.find?_eq_none.1 h k (List.mem_finRange k)
    simpa using this
  | some k =>
    right
    obtain ⟨hk, i, hi, hik, hj⟩ := List.find?_eq_some_iff_getElem.1 h
    refine ⟨k, hk, fun j hjk => ?_, rfl⟩
    have hlen : i < 16 := by simpa using hi
    have hki : k.val = i := by simpa using (congrArg Fin.val hik).symm
    have := hj j.val (by have := Fin.lt_def.1 hjk; omega)
    simpa using this

@[simp] theorem length_regsUpTo (s : State) (x : Reg) : (regsUpTo s x).length = x.val + 1 := by
  simp [regsUpTo]

/-- The stored list of registers holds V0, V1, ... in order (R134). -/
theorem getElem_regsUpTo (s : State) (x : Reg) (k : Nat) (h : k < (regsUpTo s x).length) :
    (regsUpTo s x)[k] = s.getV ⟨k, by simp at h; omega⟩ := by
  simp [regsUpTo, State.getV]

@[simp] theorem length_bcdDigits (b : Byte) : (bcdDigits b).length = 3 := rfl

/-- All that the fetch can do (R84). -/
theorem fetchWord_cases (s : State) :
    (s.pc.toNat ≤ 0x0FFE ∧
      fetchWord s = some (wordOfBytes (Memory.get s.mem s.pc.toNat) (Memory.get s.mem (s.pc.toNat + 1)))) ∨
      (0x0FFE < s.pc.toNat ∧ fetchWord s = none) := by
  unfold fetchWord
  split
  · exact .inl ⟨by omega, rfl⟩
  · exact .inr ⟨by omega, rfl⟩

/-- The fetch sees only `pc` and memory. -/
theorem fetchWord_congr {s t : State} (hp : t.pc = s.pc) (hm : ∀ a, Memory.get t.mem a = Memory.get s.mem a) :
    fetchWord t = fetchWord s := by
  simp [fetchWord, hp, hm]

@[simp] theorem fetchWord_phases (s : State) : fetchWord (phases s) = fetchWord s := rfl

/-- When the guard passes: no fault latched, and `pc` in memory (R81). -/
theorem guardStops_eq_false (s : State) :
    guardStops s = false ↔ s.fault.cause = .noFault ∧ s.pc.toNat ≤ 0x0FFF := by
  simp [guardStops, State.faulted, State.halted]

/-- A timer loses one and stops at 0 (R83). -/
theorem countDown_toNat (t : Byte) : (countDown t).toNat = t.toNat - 1 := by
  unfold countDown
  split
  · subst_vars; rfl
  · bv_omega

/-- After a word is placed, the next fetch reads it. -/
theorem fetchWord_placeWord (w : Word) (s : State) (hwf : Memory.wf s.mem = true) (hpc : s.pc.toNat ≤ 0x0FFE) :
    fetchWord (placeWord w s) = some (wordOfBytes (highByte w) (lowByteOfWord w)) := by
  have hp : s.pc.toNat + 1 ≤ 0x0FFF := by omega
  have hb : s.pc.toNat + [highByte w, lowByteOfWord w].length ≤ 4096 := by simp; omega
  simp [placeWord, fetchWord, hp, get_setBytes hwf hb]

end Sys2Proof.Machine
end

