-- ==== Sys2Proof/Laws/PerInstr.lean ====
section
/-! SUPPORT. A statement about every instruction as syntax, one lemma per constructor: its word selects its own row of the opcode map. -/

namespace Sys2Proof.Laws.SelectsItsRow

/-- The word of `i` has the group and the sub-discriminant of the row of `i` (30_encoding.md section 3). -/
def Statement (i : Instr) : Prop := keyMatches (rowKey i) (fieldsOf (encodeWord i)) = true

theorem clear (x : Nibble) : Statement (.clear x) := by
  simp [Statement, rowKey, keyMatches, Row.selects, encodeWord]

theorem ret (x : Nibble) : Statement (.ret x) := by
  simp [Statement, rowKey, keyMatches, Row.selects, encodeWord]

theorem jumpToMachineCode (nnn : Addr12) : Statement (.jumpToMachineCode nnn) := by
  simp [Statement, rowKey, keyMatches, Row.selects, encodeWord]

theorem jump (nnn : Addr12) : Statement (.jump nnn) := by
  simp [Statement, rowKey, keyMatches, Row.selects, encodeWord]

theorem call (nnn : Addr12) : Statement (.call nnn) := by
  simp [Statement, rowKey, keyMatches, Row.selects, encodeWord]

theorem skipEqualLiteral (x : Reg) (kk : Byte) : Statement (.skipEqualLiteral x kk) := by
  simp [Statement, rowKey, keyMatches, Row.selects, encodeWord]

theorem skipNotEqualLiteral (x : Reg) (kk : Byte) : Statement (.skipNotEqualLiteral x kk) := by
  simp [Statement, rowKey, keyMatches, Row.selects, encodeWord]

theorem skipEqualRegister (x y : Reg) (n : Nibble) : Statement (.skipEqualRegister x y n) := by
  simp [Statement, rowKey, keyMatches, Row.selects, encodeWord]

theorem registerSetLiteral (x : Reg) (kk : Byte) : Statement (.registerSetLiteral x kk) := by
  simp [Statement, rowKey, keyMatches, Row.selects, encodeWord]

theorem registerAddAssign (x : Reg) (kk : Byte) : Statement (.registerAddAssign x kk) := by
  simp [Statement, rowKey, keyMatches, Row.selects, encodeWord]

theorem registerSetRegister (x y : Reg) : Statement (.registerSetRegister x y) := by
  simp [Statement, rowKey, keyMatches, Row.selects, encodeWord]

theorem bitwiseOr (x y : Reg) : Statement (.bitwiseOr x y) := by
  simp [Statement, rowKey, keyMatches, Row.selects, encodeWord]

theorem bitwiseAnd (x y : Reg) : Statement (.bitwiseAnd x y) := by
  simp [Statement, rowKey, keyMatches, Row.selects, encodeWord]

theorem bitwiseXor (x y : Reg) : Statement (.bitwiseXor x y) := by
  simp [Statement, rowKey, keyMatches, Row.selects, encodeWord]

theorem registerSetRegisterAdd (x y : Reg) : Statement (.registerSetRegisterAdd x y) := by
  simp [Statement, rowKey, keyMatches, Row.selects, encodeWord]

theorem registerSetRegisterSub (x y : Reg) : Statement (.registerSetRegisterSub x y) := by
  simp [Statement, rowKey, keyMatches, Row.selects, encodeWord]

theorem registerSetRegisterShr (x y : Reg) : Statement (.registerSetRegisterShr x y) := by
  simp [Statement, rowKey, keyMatches, Row.selects, encodeWord]

theorem registerSetRegisterSubn (x y : Reg) : Statement (.registerSetRegisterSubn x y) := by
  simp [Statement, rowKey, keyMatches, Row.selects, encodeWord]

theorem registerSetRegisterShl (x y : Reg) : Statement (.registerSetRegisterShl x y) := by
  simp [Statement, rowKey, keyMatches, Row.selects, encodeWord]

theorem skipNotEqualRegister (x y : Reg) (n : Nibble) : Statement (.skipNotEqualRegister x y n) := by
  simp [Statement, rowKey, keyMatches, Row.selects, encodeWord]

theorem setIndex (nnn : Addr12) : Statement (.setIndex nnn) := by
  simp [Statement, rowKey, keyMatches, Row.selects, encodeWord]

theorem jumpTo (nnn : Addr12) : Statement (.jumpTo nnn) := by
  simp [Statement, rowKey, keyMatches, Row.selects, encodeWord]

theorem randBitwiseAnd (x : Reg) (kk : Byte) : Statement (.randBitwiseAnd x kk) := by
  simp [Statement, rowKey, keyMatches, Row.selects, encodeWord]

theorem drawSprite (x y : Reg) (n : Nibble) : Statement (.drawSprite x y n) := by
  simp [Statement, rowKey, keyMatches, Row.selects, encodeWord]

theorem skipNextKeyPressed (x : Reg) : Statement (.skipNextKeyPressed x) := by
  simp [Statement, rowKey, keyMatches, Row.selects, encodeWord]

theorem skipNextKeyNotPressed (x : Reg) : Statement (.skipNextKeyNotPressed x) := by
  simp [Statement, rowKey, keyMatches, Row.selects, encodeWord]

theorem setDelayTimerValue (x : Reg) : Statement (.setDelayTimerValue x) := by
  simp [Statement, rowKey, keyMatches, Row.selects, encodeWord]

theorem keyPressWait (x : Reg) : Statement (.keyPressWait x) := by
  simp [Statement, rowKey, keyMatches, Row.selects, encodeWord]

theorem setDelayTimerRegister (x : Reg) : Statement (.setDelayTimerRegister x) := by
  simp [Statement, rowKey, keyMatches, Row.selects, encodeWord]

theorem setSoundTimerRegister (x : Reg) : Statement (.setSoundTimerRegister x) := by
  simp [Statement, rowKey, keyMatches, Row.selects, encodeWord]

theorem indexAddAssignRegister (x : Reg) : Statement (.indexAddAssignRegister x) := by
  simp [Statement, rowKey, keyMatches, Row.selects, encodeWord]

theorem setIndexToDigitSprite (x : Reg) : Statement (.setIndexToDigitSprite x) := by
  simp [Statement, rowKey, keyMatches, Row.selects, encodeWord]

theorem storeBCDAtIndex (x : Reg) : Statement (.storeBCDAtIndex x) := by
  simp [Statement, rowKey, keyMatches, Row.selects, encodeWord]

theorem storeRegistersAtIndex (x : Reg) : Statement (.storeRegistersAtIndex x) := by
  simp [Statement, rowKey, keyMatches, Row.selects, encodeWord]

theorem readRegistersAtIndex (x : Reg) : Statement (.readRegistersAtIndex x) := by
  simp [Statement, rowKey, keyMatches, Row.selects, encodeWord]

end Sys2Proof.Laws.SelectsItsRow
end

