-- ==== Sys2Proof/Laws/Step.lean ====
section
/-! SUPPORT. What a Step can do, said once, and the equations of Return and Call over the fields they write. -/

namespace Sys2Proof.Machine

/-- All that a Step can do (R80): stopped by the guard; the fault of the fetch; the report of an unknown opcode; or the decoded instruction,
executed at the state the first phases leave. -/
theorem step_cases (s : State) :
    (guardStops s = true ∧ step s = .next s) ∨
    (guardStops s = false ∧ s.pc = 0x0FFF ∧ fetchWord s = none ∧ step s = .next (fetchFault (phases s))) ∨
    (∃ w, guardStops s = false ∧ fetchWord s = some w ∧ decodeWord w = .error (.unknownOpcode (fieldsOf w)) ∧
      step s = .next (reportUnknown w (phases s))) ∨
    ∃ w i, guardStops s = false ∧ fetchWord s = some w ∧ decodeWord w = .ok i ∧ step s = exec i (phases s) := by
  cases hg : guardStops s with
  | true => exact .inl ⟨rfl, by simp [step, hg]⟩
  | false =>
    obtain ⟨-, hf⟩ | ⟨h', hf⟩ := fetchWord_cases s
    · obtain ⟨r, -, -, hd⟩ | ⟨-, hd⟩ := decodeWord_cases (wordOfBytes (Memory.get s.mem s.pc.toNat) (Memory.get s.mem (s.pc.toNat + 1)))
      · exact .inr (.inr (.inr ⟨_, _, rfl, hf, hd, by simp [step, hg, hf, hd]⟩))
      · exact .inr (.inr (.inl ⟨_, rfl, hf, hd, by simp [step, hg, hf, hd]⟩))
    · have hp := ((guardStops_eq_false s).1 hg).2
      exact .inr (.inl ⟨rfl, by bv_omega, hf, by simp [step, hg, hf]⟩)

/-- Return over the fields it writes (R91). -/
theorem exec_ret_eq (x : Nibble) (s : State) :
    exec (.ret x) s =
      if h : 0 < s.sp.val then
        .next { s with sp := ⟨s.sp.val - 1, by omega⟩, pc := addrOf s.stk[s.sp.val - 1] }
      else .next (raiseFault .stackUnderflow (encodeWord (.ret x)) s) := by
  simp only [exec, execRet, popReturn, faultIn]
  by_cases h : 0 < s.sp.val
  · simp only [h, dif_pos]; rfl
  · simp only [h, dif_neg, not_false_eq_true]

/-- Call over the fields it writes, overflow tested first (R93, R172). -/
theorem exec_call_eq (nnn : Addr12) (s : State) :
    exec (.call nnn) s =
      if h : s.sp.val < 16 then
        if returnAddressFits s then
          .next { s with stk := s.stk.set s.sp.val (returnAddress s), sp := ⟨s.sp.val + 1, by omega⟩, pc := addrOf nnn }
        else .next (raiseFault .returnAddressRange (encodeWord (.call nnn)) s)
      else .next (raiseFault .stackOverflow (encodeWord (.call nnn)) s) := by
  simp only [exec, execCall, pushReturn, faultIn]
  by_cases h : s.sp.val < 16 <;> simp only [h, dif_pos, dif_neg, not_false_eq_true]
  split <;> rfl

/-- A word placed where a Step fetches is the one it runs, when it decodes and the guard passes (the claim `withFetchWord` is for). -/
theorem step_placeWord {w : Word} {i : Instr} {s : State} (hm : Memory.wf s.mem = true) (hc : s.fault.cause = .noFault)
    (hpc : s.pc.toNat ≤ 0x0FFE) (hd : decodeWord w = .ok i) :
    step (placeWord w s) = exec i (phases (placeWord w s)) := by
  have hf := fetchWord_placeWord w s hm hpc
  rw [wordOfBytes_highByte_lowByte] at hf
  have hg : guardStops (placeWord w s) = false := by
    rw [guardStops_eq_false]
    have h1 : (placeWord w s).fault = s.fault := by unfold placeWord; split <;> rfl
    have h2 : (placeWord w s).pc = s.pc := by unfold placeWord; split <;> rfl
    rw [h1, h2]; exact ⟨hc, by omega⟩
  simp [step, hg, hf, hd]

end Sys2Proof.Machine
end

