-- ==== Sys2Proof/Tests/Slice0.lean ====
section
/-! SUPPORT. Tests. First the well-formedness smoke, then a word from the spec's encoding for every constructor's decoding, then one Step on small
states with the results 95_test_vectors.md gives (the vector's name stands in the docstring), then for every claim with hypotheses a concrete
input that meets them, at the ends of their ranges. -/

open Sys2Proof Sys2Proof.Machine Sys2Proof.Claims

namespace Sys2Proof.Tests

/-! ## Well-formedness -/

/-- The one check: in group 0 the low byte E0 is Clear's and EE is Return's (R65). -/
theorem test_illformed_jumpToMachineCode :
    WellFormed (.jumpToMachineCode 0x0E0) = false ∧ WellFormed (.jumpToMachineCode 0x1E0) = false ∧
    WellFormed (.jumpToMachineCode 0x0EE) = false ∧ WellFormed (.jumpToMachineCode 0xFEE) = false := by decide

theorem test_wellformed_jumpToMachineCode :
    WellFormed (.jumpToMachineCode 0x0E1) = true ∧ WellFormed (.jumpToMachineCode 0xEE0) = false ∧
    WellFormed (.jumpToMachineCode 0xE00) = true := by decide

/-! ## Decoding: words written out from 30_encoding.md section 3 -/

/-- Group 0 (R65), bit by bit. -/
theorem test_decode_group0 :
    decodeWord 0b0000_0000_1110_0000 = .ok (.clear 0x0) ∧ decodeWord 0b0000_0001_1110_0000 = .ok (.clear 0x1) ∧
    decodeWord 0b0000_0000_1110_1110 = .ok (.ret 0x0) ∧ decodeWord 0b0000_1111_1110_1110 = .ok (.ret 0xF) ∧
    decodeWord 0b0000_0001_0010_0011 = .ok (.jumpToMachineCode 0x123) ∧
    decodeWord 0b0000_0000_1110_0001 = .ok (.jumpToMachineCode 0x0E1) := by decide

/-- Control flow, formats A. -/
theorem test_decode_control_flow :
    decodeWord 0b0001_1010_1011_1100 = .ok (.jump 0xABC) ∧ decodeWord 0b0010_1010_1011_1100 = .ok (.call 0xABC) ∧
    decodeWord 0b1011_0011_0000_0001 = .ok (.jumpTo 0x301) := by decide

/-- Skips, formats XK, XY and XF; `n` is ignored in groups 5 and 9 (R66). -/
theorem test_decode_skips :
    decodeWord 0b0011_1010_0100_0010 = .ok (.skipEqualLiteral 10 0x42) ∧
    decodeWord 0b0100_1010_0100_0010 = .ok (.skipNotEqualLiteral 10 0x42) ∧
    decodeWord 0b0101_0001_0010_0111 = .ok (.skipEqualRegister 1 2 0x7) ∧
    decodeWord 0b1001_0001_0010_1111 = .ok (.skipNotEqualRegister 1 2 0xF) ∧
    decodeWord 0b1110_0011_1001_1110 = .ok (.skipNextKeyPressed 3) ∧
    decodeWord 0b1110_0011_1010_0001 = .ok (.skipNextKeyNotPressed 3) := by decide

/-- Literal and random register instructions, format XK. -/
theorem test_decode_literals :
    decodeWord 0b0110_1100_1111_1110 = .ok (.registerSetLiteral 12 0xFE) ∧
    decodeWord 0b0111_0011_0000_0001 = .ok (.registerAddAssign 3 0x01) ∧
    decodeWord 0b1100_0011_0000_1111 = .ok (.randBitwiseAnd 3 0x0F) := by decide

/-- Group 8, by `n` (R67). -/
theorem test_decode_group8 :
    decodeWord 0b1000_0001_0010_0000 = .ok (.registerSetRegister 1 2) ∧ decodeWord 0b1000_0001_0010_0001 = .ok (.bitwiseOr 1 2) ∧
    decodeWord 0b1000_0001_0010_0010 = .ok (.bitwiseAnd 1 2) ∧ decodeWord 0b1000_0001_0010_0011 = .ok (.bitwiseXor 1 2) ∧
    decodeWord 0b1000_0001_0010_0100 = .ok (.registerSetRegisterAdd 1 2) ∧
    decodeWord 0b1000_0001_0010_0101 = .ok (.registerSetRegisterSub 1 2) ∧
    decodeWord 0b1000_0001_0010_0110 = .ok (.registerSetRegisterShr 1 2) ∧
    decodeWord 0b1000_1010_1011_0111 = .ok (.registerSetRegisterSubn 10 11) ∧
    decodeWord 0b1000_1010_1011_1110 = .ok (.registerSetRegisterShl 10 11) := by decide

/-- Index, memory, timer and key-wait instructions, group A and group F by `kk` (R69). -/
theorem test_decode_index_memory_timers :
    decodeWord 0b1010_1111_1110_1101 = .ok (.setIndex 0xFED) ∧ decodeWord 0b1111_0010_0000_0111 = .ok (.setDelayTimerValue 2) ∧
    decodeWord 0b1111_1111_0000_1010 = .ok (.keyPressWait 15) ∧ decodeWord 0b1111_0001_0001_0101 = .ok (.setDelayTimerRegister 1) ∧
    decodeWord 0b1111_0011_0001_1000 = .ok (.setSoundTimerRegister 3) ∧
    decodeWord 0b1111_0011_0001_1110 = .ok (.indexAddAssignRegister 3) ∧
    decodeWord 0b1111_0100_0010_1001 = .ok (.setIndexToDigitSprite 4) ∧
    decodeWord 0b1111_0101_0011_0011 = .ok (.storeBCDAtIndex 5) ∧
    decodeWord 0b1111_0011_0101_0101 = .ok (.storeRegistersAtIndex 3) ∧
    decodeWord 0b1111_0000_0110_0101 = .ok (.readRegistersAtIndex 0) := by decide

/-- DrawSprite, format XY. -/
theorem test_decode_draw : decodeWord 0b1101_0001_0010_1111 = .ok (.drawSprite 1 2 0xF) := by decide

/-- Unlisted values of `n` and `kk` are unknown opcodes, with their fields (R67 to R70). -/
theorem test_decode_unknown :
    decodeWord 0x8AB8 = .error (.unknownOpcode (fieldsOf 0x8AB8)) ∧ decodeWord 0x8ABD = .error (.unknownOpcode (fieldsOf 0x8ABD)) ∧
    decodeWord 0x8ABF = .error (.unknownOpcode (fieldsOf 0x8ABF)) ∧ decodeWord 0xE000 = .error (.unknownOpcode (fieldsOf 0xE000)) ∧
    decodeWord 0xE19F = .error (.unknownOpcode (fieldsOf 0xE19F)) ∧ decodeWord 0xF066 = .error (.unknownOpcode (fieldsOf 0xF066)) ∧
    decodeWord 0xF1FF = .error (.unknownOpcode (fieldsOf 0xF1FF)) := by decide

/-- Fewer than two bytes are no instruction, and the bytes after an instruction are left. -/
theorem test_decode_bytes :
    decode [] = .error .tooFewBytes ∧ decode [0x12] = .error .tooFewBytes ∧
    decode [0x12, 0x34, 0x56] = .ok (.jump 0x234, [0x56]) := by decide

/-- The host's question on a row of 16 bits, and on a word the decoder rejects. -/
theorem test_decodeTableWord :
    decodeTableWord 16 0x6A15 = some (.registerSetLiteral 10 0x15) ∧ decodeTableWord 16 0x800F = none := by decide

/-! ## One Step on small states -/

/-- The state after the one Step that runs the word `w`. -/
def after (w : Word) (s : State) : State :=
  match step (placeWord w s) with
  | .next t => t
  | .fault _ => s
  | .refused _ => s

/-- The reset state. -/
def zero : State := State.reset

/-- Registers set, one by one. -/
def withV (rs : List (Reg × Byte)) (s : State) : State := rs.foldl (fun s p => s.setV p.1 p.2) s

/-- IX17's registers: `V[i] = 0x10 + i`. -/
def countedV : Vector Byte 16 := Vector.ofFn fun i : Fin 16 => BitVec.ofNat 8 (0x10 + i.val)

/-- IX22's memory: `M[0x400 + i] = 0xA0 + i`. -/
def countedMem : Memory := Memory.setBytes [] 0x400 ((List.range 16).map fun i => BitVec.ofNat 8 (0xA0 + i))

/-- A framebuffer in which only the pixel (column 0, row 0) and the pixel (63, 31) are lit. -/
def cornersLit : Framebuffer := flipPixel (flipPixel clearedFb 0 0) 31 63

/-- The word the host places is the one the first Step after reset runs. -/
theorem test_withFetchWord :
    step (State.reset.withFetchWord 16 0x6A15) = .next { State.reset.withFetchWord 16 0x6A15 with
      v := State.reset.v.set 10 0x15, pc := 0x0202, tick := 1 } := rfl

/-- 40_step_sequence.md section 3, the worked Step. -/
theorem test_worked_step :
    let t := after 0x71FF { withV [(1, 0x0A)] zero with dt := 3, st := 1, tick := 7 }
    (t.tick, t.dt, t.st, t.events, t.getV 1, t.getV VF, t.pc) = (8, 2, 0, [.beep], 0x09, 0x00, 0x0202) := by decide

/-- T1: the fetch at the last byte. -/
theorem test_T1 :
    let t := after 0 { zero with pc := 0x0FFF, dt := 3, st := 2 }
    (t.tick, t.dt, t.st, t.events, t.fault, t.pc) = (1, 2, 1, [.beep], ⟨.fetchBounds, 0x0FFF, 0x0000⟩, 0x0FFF) := by decide

/-- T2 and S13: halted. -/
theorem test_T2 :
    let s := { zero with pc := 0x1000, dt := 3, st := 2 }
    step s = .next s := rfl

/-- T3: running off the end. -/
theorem test_T3 :
    let t := after 0x6001 { zero with pc := 0x0FFE, dt := 3, st := 2 }
    (t.dt, t.st, t.events, t.getV 0, t.pc, t.halted) = (2, 1, [.beep], 0x01, 0x1000, true) := by decide

/-- T4: an odd address. -/
theorem test_T4 :
    let t := after 0x6001 { zero with pc := 0x0201 }
    (t.getV 0, t.pc) = (0x01, 0x0203) := by decide

/-- T5: an unknown opcode holds, and is reported by every Step. -/
theorem test_T5 :
    let t := after 0x8128 { withV [(1, 0x01)] zero with dt := 3, st := 2 }
    let u := after 0x8128 t
    (t.dt, t.st, t.pc) = (2, 1, 0x0200) ∧ (u.dt, u.st, u.pc, u.tick) = (1, 0, 0x0200, 2) ∧
      u.events = [.unknownOpcode 0x8128 0x0200, .beep, .unknownOpcode 0x8128 0x0200, .beep] := by decide

/-- T8: faulted. -/
theorem test_T8 :
    let s := placeWord 0x6001 { zero with fault := ⟨.dataBounds, 0x0300, 0xF055⟩, dt := 3, st := 2 }
    step s = .next s := rfl

/-- CF1, CF2: JumpToMachineCode advances and does nothing else. -/
theorem test_CF2 : after 0x0123 zero = { placeWord 0x0123 zero with pc := 0x0202, tick := 1 } := by decide

/-- CF3: the entry popped is the top one, and stays. -/
theorem test_CF3 :
    let t := after 0x00EE { zero with sp := 2, stk := (zero.stk.set 0 0x206).set 1 0x3A0 }
    (t.sp, t.pc, t.stk[1], t.stk[0]) = (1, 0x03A0, 0x3A0, 0x206) := by decide

/-- CF5: underflow. -/
theorem test_CF5 :
    let t := after 0x00EE zero
    (t.fault, t.sp, t.pc) = (⟨.stackUnderflow, 0x0200, 0x00EE⟩, 0, 0x0200) := by decide

/-- CF7, CF8: a target is not checked. -/
theorem test_CF8 : (after 0x1FFF zero).pc = 0x0FFF ∧ (after 0x1203 zero).pc = 0x0203 := by decide

/-- CF9: the last free entry. -/
theorem test_CF9 :
    let t := after 0x2ABC { zero with sp := 15 }
    (t.stk[15], t.sp, t.pc, t.fault.cause) = (0x202, 16, 0x0ABC, .noFault) := by decide

/-- CF10, CF11, CF12: the two faults of Call, and which comes first. -/
theorem test_CF12 :
    (after 0x2ABC { zero with sp := 16 }).fault = ⟨.stackOverflow, 0x0200, 0x2ABC⟩ ∧
    (after 0x2300 { zero with pc := 0x0FFE }).fault = ⟨.returnAddressRange, 0x0FFE, 0x2300⟩ ∧
    (after 0x2300 { zero with pc := 0x0FFE, sp := 16 }).fault = ⟨.stackOverflow, 0x0FFE, 0x2300⟩ := by decide

/-- CF15, CF16: the sum is not reduced. -/
theorem test_CF15 : (after 0xBFFF (withV [(0, 0xFF)] zero)).pc = 0x10FE ∧ (after 0xBFFF zero).pc = 0x0FFF := by decide

/-- SK1 to SK4. -/
theorem test_SK1 :
    (after 0x3A42 (withV [(10, 0x42)] zero)).pc = 0x0204 ∧ (after 0x3A42 (withV [(10, 0x43)] zero)).pc = 0x0202 ∧
    (after 0x4A42 (withV [(10, 0x42)] zero)).pc = 0x0202 ∧ (after 0x4A42 (withV [(10, 0x43)] zero)).pc = 0x0204 := by decide

/-- SK6, SK7, SK9, SK10. -/
theorem test_SK6 :
    (after 0x5127 (withV [(1, 7), (2, 7)] zero)).pc = 0x0204 ∧ (after 0x5120 (withV [(1, 7), (2, 8)] zero)).pc = 0x0202 ∧
    (after 0x9120 (withV [(1, 7), (2, 8)] zero)).pc = 0x0204 ∧ (after 0x912F (withV [(1, 7), (2, 7)] zero)).pc = 0x0202 := by decide

/-- SK12 to SK15. -/
theorem test_SK12 :
    (after 0xE39E { withV [(3, 0x0A)] zero with keys := 0x0400 }).pc = 0x0204 ∧
    (after 0xE39E { withV [(3, 0x0A)] zero with keys := 0x0800 }).pc = 0x0202 ∧
    (after 0xE3A1 { withV [(3, 0x0A)] zero with keys := 0x0400 }).pc = 0x0202 ∧
    (after 0xE3A1 (withV [(3, 0x0A)] zero)).pc = 0x0204 := by decide

/-- SK16, SK17: no masking. -/
theorem test_SK16 :
    (after 0xE39E { withV [(3, 0x10)] zero with keys := 1 }).fault = ⟨.keyIndexRange, 0x0200, 0xE39E⟩ ∧
    (after 0xE3A1 (withV [(3, 0xFF)] zero)).fault = ⟨.keyIndexRange, 0x0200, 0xE3A1⟩ := by decide

/-- AL2, AL4. -/
theorem test_AL2 : (after 0x6F07 (withV [(15, 1)] zero)).getV VF = 0x07 ∧ (after 0x7FFF (withV [(15, 1)] zero)).getV VF = 0x00 := by decide

/-- AL5 to AL8. -/
theorem test_AL5 :
    (after 0x8120 (withV [(1, 0x01), (2, 0x99)] zero)).getV 1 = 0x99 ∧
    (after 0x8121 (withV [(1, 0x0F), (2, 0xF0)] zero)).getV 1 = 0xFF ∧
    (after 0x8122 (withV [(1, 0x3C), (2, 0x0F)] zero)).getV 1 = 0x0C ∧
    (after 0x8123 (withV [(1, 0xFF), (2, 0x0F), (15, 1)] zero)).getV 1 = 0xF0 ∧
    (after 0x8123 (withV [(1, 0xFF), (2, 0x0F), (15, 1)] zero)).getV VF = 0x01 := by decide

/-- AL10 (S2), AL14. -/
theorem test_AL10 :
    let t := after 0x8124 (withV [(1, 0xFA), (2, 0x0A)] zero)
    let u := after 0x8F14 (withV [(15, 0xFF), (1, 0x02)] zero)
    (t.getV 1, t.getV 2, t.getV VF, t.pc, u.getV VF, u.getV 1) = (0x04, 0x0A, 0x01, 0x0202, 0x01, 0x02) := by decide

/-- AL17 (S4), AL19, AL22. -/
theorem test_AL17 :
    let t := after 0x8125 (withV [(1, 0x0A), (2, 0x14)] zero)
    let u := after 0x8125 (withV [(1, 0x07), (2, 0x07)] zero)
    let v := after 0x8F15 (withV [(15, 0x03), (1, 0x05)] zero)
    (t.getV 1, t.getV VF, u.getV 1, u.getV VF, v.getV VF) = (0xF6, 0x00, 0x00, 0x01, 0x00) := by decide

/-- AL24, AL27. -/
theorem test_AL24 :
    let t := after 0x8126 (withV [(1, 0x05), (2, 0xFF)] zero)
    let u := after 0x8F06 (withV [(15, 0x02)] zero)
    (t.getV 1, t.getV VF, t.getV 2, u.getV VF) = (0x02, 0x01, 0xFF, 0x00) := by decide

/-- AL28, AL29. -/
theorem test_AL28 :
    let t := after 0x8127 (withV [(1, 0x0A), (2, 0x14)] zero)
    let u := after 0x8127 (withV [(1, 0x14), (2, 0x0A)] zero)
    (t.getV 1, t.getV VF, u.getV 1, u.getV VF) = (0x0A, 0x01, 0xF6, 0x00) := by decide

/-- AL32, AL35. -/
theorem test_AL32 :
    let t := after 0x812E (withV [(1, 0x81)] zero)
    let u := after 0x8F0E (withV [(15, 0x7F)] zero)
    (t.getV 1, t.getV VF, u.getV VF) = (0x02, 0x01, 0x00) := by decide

/-- AL39, AL40, AL42, with the vector's random byte. -/
theorem test_AL39 :
    (randBitwiseAndWith 0xFF 3 0x0F (withV [(3, 0x77)] zero)).getV 3 = 0x0F ∧
    (randBitwiseAndWith 0xA5 3 0x0F (withV [(3, 0x77)] zero)).getV 3 = 0x05 ∧
    (randBitwiseAndWith 0x3C 15 0xFF (withV [(15, 1)] zero)).getV VF = 0x3C := by decide

/-- AL41: mask 00, whatever the random source presents. -/
theorem test_AL41 : ∃ t : State, exec (.randBitwiseAnd 5 0x00) (withV [(5, 0x77)] zero) = .next t ∧ t.getV 5 = 0x00 :=
  ⟨_, rfl, by simp [randBitwiseAndWith]⟩

/-- IX1, IX3. -/
theorem test_IX1 :
    (after 0xAFFF zero).i = 0x0FFF ∧ (after 0xF31E { withV [(3, 0x02)] zero with i := 0xFFFF }).i = 0x0001 := by decide

/-- IX5, IX6. -/
theorem test_IX5 : (after 0xF429 (withV [(4, 0x0A)] zero)).i = 0x0032 ∧ (after 0xF429 (withV [(4, 0xFF)] zero)).i = 0x04FB := by decide

/-- IX12, IX14. -/
theorem test_IX12 :
    Memory.bytes (after 0xF533 { withV [(5, 0xFE)] zero with i := 0x0300 }).mem 0x300 3 = [0x02, 0x05, 0x04] ∧
    Memory.bytes (after 0xF533 { withV [(5, 0x7B)] zero with i := 0x0FFD }).mem 0xFFD 3 = [0x01, 0x02, 0x03] := by decide

/-- IX15: nothing is written. -/
theorem test_IX15 :
    let t := after 0xF533 { withV [(5, 0x7B)] zero with i := 0x0FFE }
    (t.fault, Memory.bytes t.mem 0xFFE 2, t.pc) = (⟨.dataBounds, 0x0200, 0xF533⟩, [0x00, 0x00], 0x0200) := by decide

/-- IX17, IX20, IX21. -/
theorem test_IX17 :
    Memory.bytes (after 0xF355 { zero with v := countedV, i := 0x0400 }).mem 0x400 5 = [0x10, 0x11, 0x12, 0x13, 0x00] ∧
    Memory.bytes (after 0xFF55 { zero with v := countedV, i := 0x0FF0 }).mem 0xFFE 2 = [0x1E, 0x1F] ∧
    (after 0xFF55 { zero with v := countedV, i := 0x0FF1 }).fault = ⟨.dataBounds, 0x0200, 0xFF55⟩ := by decide

/-- IX22, IX26. -/
theorem test_IX22 :
    let t := after 0xF365 { withV [(4, 0x99)] zero with mem := countedMem, i := 0x0400 }
    let u := after 0xF465 zero
    (t.getV 0, t.getV 3, t.getV 4, t.i, u.getV 0, u.getV 1, u.getV 4) = (0xA0, 0xA3, 0x99, 0x0400, 0xF0, 0x90, 0xF0) := by decide

/-- IX24: nothing is loaded. -/
theorem test_IX24 :
    let t := after 0xF265 { withV [(0, 1), (1, 2), (2, 3)] zero with i := 0x0FFE }
    (t.fault, t.getV 0, t.getV 1, t.getV 2) = (⟨.dataBounds, 0x0200, 0xF265⟩, 1, 2, 3) := by decide

/-- DR1 (S9). -/
theorem test_DR1 :
    let t := after 0x00E0 { zero with fb := cornersLit }
    (t.fb, t.redraw, t.pc) = (clearedFb, true, 0x0202) := by decide

/-- DR4: glyph 7 wrapped on both axes. -/
theorem test_DR4 :
    let t := after 0xD015 { withV [(0, 0x3E), (1, 0x1E)] zero with i := 0x0023 }
    (t.fb[30], t.fb[31], t.fb[0], t.fb[1], t.fb[2], t.fb[3], t.getV VF) =
      (0xC000000000000003, 0x0000000000000002, 0x0000000000000001, 0x8000000000000000, 0x8000000000000000, 0, 0x00) := by decide

/-- DR6, DR7, DR10. -/
theorem test_DR6 :
    let t := after 0xD011 { zero with i := 0x0300, mem := [(0x300, 0xC0)], fb := flipPixel clearedFb 0 1 }
    let u := after 0xD010 { withV [(15, 1)] zero with i := 0x1000 }
    let v := after 0xDF11 { withV [(15, 3), (1, 2)] zero with i := 0x0300, mem := [(0x300, 0x80)] }
    (t.fb[0], t.getV VF, u.getV VF, u.redraw, u.fault.cause, v.fb[2], v.getV VF) = (0x1, 0x01, 0x00, true, .noFault, 0x8, 0x00) := by
  decide

/-- DR8: nothing is drawn. -/
theorem test_DR8 :
    let t := after 0xD013 { withV [(15, 1)] zero with i := 0x0FFE, mem := [(0xFFE, 0xFF), (0xFFF, 0xFF)] }
    (t.fault, t.fb, t.getV VF, t.redraw) = (⟨.dataBounds, 0x0200, 0xD013⟩, clearedFb, 0x01, false) := by decide

/-- TK1, TK3. -/
theorem test_TK1 :
    let t := after 0xF207 { zero with dt := 5 }
    let u := after 0xF207 { withV [(2, 9)] zero with dt := 0 }
    (t.dt, t.getV 2, u.dt, u.getV 2) = (4, 4, 0, 0) := by decide

/-- TK5, and the first Step of TK6. -/
theorem test_TK5 :
    (after 0xF015 { withV [(0, 5)] zero with dt := 0xC8 }).dt = 5 ∧ (after 0xF318 (withV [(3, 2)] zero)).st = 2 ∧
    (after 0xF318 (withV [(3, 2)] zero)).events = [] := by decide

/-- P4's Step 7 (keys 7 and 9 down), TK8, and the first Step of TK9. -/
theorem test_TK7 :
    (after 0xF10A { zero with keys := 0x0280 }).getV 1 = 0x07 ∧ (after 0xF10A { withV [(1, 9)] zero with keys := 1 }).getV 1 = 0x00 ∧
    (after 0xF10A (withV [(1, 9)] zero)).getV 1 = 0x09 ∧ (after 0xF10A zero).pc = 0x0200 := by decide

/-! ## The host -/

/-- An image of `n` bytes. -/
def fullImage (n : Nat) : List Byte := List.replicate n 0xFF

theorem length_fullImage (n : Nat) : (fullImage n).length = n := List.length_replicate

theorem hostAct_reset_next (image : List Byte) (h : image.length ≤ 3584) : ∃ t : State, hostAct (.reset image) zero = .next t :=
  ⟨_, if_pos h⟩

/-- P2's image: loaded from 0x200, the font below, zeros after it. -/
theorem test_hostReset :
    hostReset [0x60, 0xFE, 0xA3, 0x00] zero = .next { zero with mem := [(0x200, 0x60), (0x201, 0xFE), (0x202, 0xA3)] } := rfl

/-- An image of 3585 bytes is refused (R195). -/
theorem test_hostReset_too_large : hostReset (fullImage 3585) zero = .refused .imageTooLarge :=
  if_neg (by rw [length_fullImage]; decide)

/-! ## Concrete inputs that meet the hypotheses of the claims -/

/-- A step's next state, for the inputs below. -/
def next (i : Instr) (s : State) : State :=
  match exec i s with
  | .next t => t
  | .fault _ => s
  | .refused _ => s

/-- The state with a word placed where it fetches. -/
def at_ (pc w : Word) : State := placeWord w { zero with pc := pc }

theorem test_witness_DecodeOfEncodeIsIdentity : WellFormed (.jumpToMachineCode 0x0E1) = true ∧ WellFormed (.ret 0xF) = true := by decide

theorem test_witness_EncodeOfDecodeIsIdentity : decodeWord 0x0FEE = .ok (.ret 0xF) ∧ decodeWord 0xFF65 = .ok (.readRegistersAtIndex 15) := by decide

theorem test_witness_UnknownOpcodesAreExactlyTheListed :
    ((fieldsOf 0x8008).group = 0x8 ∧ (fieldsOf 0x8008).n ∈ [(0x8 : Nibble), 0x9, 0xA, 0xB, 0xC, 0xD, 0xF]) ∧
    ((fieldsOf 0xEF9D).group = 0xE ∧ (fieldsOf 0xEF9D).kk ∉ [(0x9E : Byte), 0xA1]) ∧
    ((fieldsOf 0xFF66).group = 0xF ∧ (fieldsOf 0xFF66).kk ∉ [(0x07 : Byte), 0x0A, 0x15, 0x18, 0x1E, 0x29, 0x33, 0x55, 0x65]) ∧
    decodeWord 0x800E ≠ .error (.unknownOpcode (fieldsOf 0x800E)) := by decide

/-- Both values of each flag, at the ends of the conditions: sums 255 and 256, equal operands and one less, bits 0 and 7. -/
theorem test_witness_flags :
    ¬255 < ((withV [(1, 0xFE)] zero).getV 1).toNat + (0x01 : Byte).toNat ∧ 255 < ((withV [(1, 0xFF)] zero).getV 1).toNat + (0x01 : Byte).toNat ∧
    ((zero.getV 1).toNat ≤ (zero.getV 2).toNat) ∧ ¬((withV [(1, 1)] zero).getV 1).toNat ≤ (zero.getV 2).toNat ∧
    ((withV [(1, 0xFF)] zero).getV 1).toNat % 2 = 1 ∧ ¬(zero.getV 1).toNat % 2 = 1 ∧
    128 ≤ ((withV [(1, 0x80)] zero).getV 1).toNat ∧ ¬128 ≤ ((withV [(1, 0x7F)] zero).getV 1).toNat := by decide

theorem test_witness_JumpsSetOnlyThePc :
    lowByte 0x0E1 ≠ 0xE0 ∧ lowByte 0x0E1 ≠ 0xEE ∧ lowByte 0xFEF ≠ 0xE0 ∧ lowByte 0xFEF ≠ 0xEE ∧
    0x0FFF < ((withV [(0, 0xFF)] zero).getV 0).toNat + (0xF01 : Addr12).toNat ∧ (next (.jumpTo 0xF01) (withV [(0, 0xFF)] zero)).pc = 0x1000 := by
  decide

theorem test_witness_ReturnPopsOrUnderflows :
    zero.sp.val = 0 ∧ 0 < ({ zero with sp := 1 } : State).sp.val ∧ 0 < ({ zero with sp := 16 } : State).sp.val := by decide

theorem test_witness_CallPushesOrFaults :
    ({ zero with sp := 16 } : State).sp.val = 16 ∧
    (({ zero with sp := 15, pc := 0x0FFE } : State).sp.val ≠ 16 ∧ 0x0FFF < ({ zero with sp := 15, pc := 0x0FFE } : State).pc.toNat + 2) ∧
    (({ zero with sp := 15, pc := 0x0FFD } : State).sp.val ≠ 16 ∧ ({ zero with sp := 15, pc := 0x0FFD } : State).pc.toNat + 2 ≤ 0x0FFF) := by
  decide

theorem test_witness_ComparingSkipsTestAndStep :
    zero.getV 1 = zero.getV 2 ∧ ¬(withV [(1, 0xFF)] zero).getV 1 = zero.getV 2 ∧ zero.getV 1 = (0x00 : Byte) ∧ ¬zero.getV 1 = (0xFF : Byte) := by
  decide

theorem test_witness_KeySkipsTestTheKeyOrFault :
    15 < ((withV [(3, 0x10)] zero).getV 3).toNat ∧ ((withV [(3, 0x0F)] zero).getV 3).toNat ≤ 15 ∧
    ({ zero with keys := 0x8000 } : State).keys.getLsbD 15 = true ∧ zero.keys.getLsbD 15 = false := by decide

/-- `I` at the last base in range and one above it. -/
theorem test_witness_StoreBcdWritesThreeDigitsOrFaults :
    Memory.wf zero.mem = true ∧ dataBase { zero with i := 0x0FFD } + 2 ≤ 0x0FFF ∧ 0x0FFF < dataBase { zero with i := 0x0FFE } + 2 := by decide

/-- For the least and the greatest `x`, and for both instructions, the last base in range and one above it. -/
theorem test_witness_StoreRegistersWritesTheRangeOrFaults :
    Memory.wf zero.mem = true ∧ dataBase { zero with i := 0x0FFF } + (0 : Reg).val ≤ 0x0FFF ∧
    0x0FFF < dataBase { zero with i := 0x1000 } + (0 : Reg).val ∧ dataBase { zero with i := 0x0FF0 } + (15 : Reg).val ≤ 0x0FFF ∧
    0x0FFF < dataBase { zero with i := 0x0FF1 } + (15 : Reg).val := by decide

theorem test_witness_ReadRegistersLoadsTheRangeOrFaults :
    dataBase { zero with i := 0x0FFF } + (0 : Reg).val ≤ 0x0FFF ∧ 0x0FFF < dataBase { zero with i := 0xFFFF } + (0 : Reg).val ∧
    dataBase { zero with i := 0x0FF0 } + (15 : Reg).val ≤ 0x0FFF ∧ 0x0FFF < dataBase { zero with i := 0x0FF1 } + (15 : Reg).val ∧
    Memory.wf zero.mem = true ∧ (next (.storeRegistersAtIndex 15) { zero with v := countedV, i := 0x0FF0 }).pc = 0x0202 := by decide

/-- IX27. -/
theorem test_witness_NextFetchSeesTheStore :
    let s := { withV [(0, 0x12)] zero with i := 0x0202 }
    Memory.wf s.mem = true ∧ 1 ≤ (1 : Reg).val ∧ dataBase s = s.pc.toNat + 2 ∧ dataBase s + (1 : Reg).val ≤ 0x0FFF ∧
    ∃ t : State, exec (.storeRegistersAtIndex 1) s = .next t := ⟨by decide, by decide, by decide, by decide, _, rfl⟩

/-- The last byte of memory, alone and beyond. -/
theorem test_witness_AccessPrimitivesCheckTheWholeRange :
    Memory.wf zero.mem = true ∧ 0xFFF + 1 ≤ 4096 ∧ (1 ≤ 2 ∧ 0x0FFF < 0xFFF + 2 - 1) ∧ 0xFFF + [(0x01 : Byte)].length ≤ 4096 ∧
    (1 ≤ [(0x01 : Byte), 0x02].length ∧ 0x0FFF < 0xFFF + [(0x01 : Byte), 0x02].length - 1) := by decide

theorem test_witness_CanonicalMemoriesReadingAlikeAreEqual :
    Memory.wf (Memory.set (Memory.set [] 0x301 0x02) 0x300 0x01) = true ∧ Memory.wf [(0x300, 0x01), (0x301, 0x02)] = true ∧
    ∀ a : Nat, Memory.get (Memory.set (Memory.set [] 0x301 0x02) 0x300 0x01) a = Memory.get [(0x300, 0x01), (0x301, 0x02)] a :=
  ⟨by decide, by decide, fun _ => rfl⟩

theorem test_witness_DataBoundsRaisedExactlyBeyondMemory :
    (1 ≤ (0xF : Nibble).toNat ∧ 0x0FFF < ({ zero with i := 0x0FF2 } : State).i.toNat + (0xF : Nibble).toNat - 1) ∧
    ({ zero with i := 0x0FF1 } : State).i.toNat + (0xF : Nibble).toNat - 1 ≤ 0x0FFF ∧
    0x0FFF < ({ zero with i := 0x0FFE } : State).i.toNat + 2 ∧ ({ zero with i := 0x0FFD } : State).i.toNat + 2 ≤ 0x0FFF ∧
    0x0FFF < ({ zero with i := 0x0FF1 } : State).i.toNat + (15 : Reg).val ∧ ({ zero with i := 0x0FF0 } : State).i.toNat + (15 : Reg).val ≤ 0x0FFF ∧
    (next (.drawSprite 0 0 0xF) { zero with i := 0x0FF1 }).pc = 0x0202 ∧ (next (.storeBCDAtIndex 0) { zero with i := 0x0FFD }).pc = 0x0202 ∧
    (next (.storeRegistersAtIndex 15) { zero with i := 0x0FF0 }).pc = 0x0202 ∧
    (next (.readRegistersAtIndex 15) { zero with i := 0x0FF0 }).pc = 0x0202 := by decide

/-- No row at any `I`; 15 rows at the last base; a lit pixel under the sprite, and none. -/
theorem test_witness_DrawSpriteXorsTheSpriteAndFlagsCollision :
    (0 : Nibble).toNat = 0 ∧ dataBase { zero with i := 0x0FF1 } + (0xF : Nibble).toNat - 1 ≤ 0x0FFF ∧
    (1 ≤ (1 : Nibble).toNat ∧ 0x0FFF < dataBase { zero with i := 0x1000 } + (1 : Nibble).toNat - 1) ∧
    SpriteLands zero 0 1 5 0 0 ∧ pixel cornersLit 0 0 = true ∧ pixel clearedFb 0 0 = false :=
  ⟨by decide, by decide, by decide, ⟨0, 0, by decide, by decide, by decide, by decide, by decide⟩, by decide, by decide⟩

theorem test_witness_DrawingTwiceRestoresTheFramebuffer :
    (0 : Reg) ≠ VF ∧ (1 : Reg) ≠ VF ∧ dataBase { zero with i := 0x0FF1 } + (0xF : Nibble).toNat - 1 ≤ 0x0FFF ∧
    ∃ t : State, exec (.drawSprite 0 1 0xF) { zero with i := 0x0FF1 } = .next t := ⟨by decide, by decide, by decide, _, rfl⟩

/-- No key, the first key, the last key alone. -/
theorem test_witness_KeyPressWaitTakesTheLeastKeyOrHolds :
    (∀ k : Fin 16, zero.keys.getLsbD k.val = false) ∧
    ((0x8001 : BitVec 16).getLsbD (0 : Fin 16).val = true ∧ ∀ j : Fin 16, j.val < (0 : Fin 16).val → (0x8001 : BitVec 16).getLsbD j.val = false) ∧
    ((0x8000 : BitVec 16).getLsbD (15 : Fin 16).val = true ∧
      ∀ j : Fin 16, j.val < (15 : Fin 16).val → (0x8000 : BitVec 16).getLsbD j.val = false) ∧
    (guardStops (at_ 0x0FFE 0xFF0A) = false ∧ fetchedInstr (at_ 0x0FFE 0xFF0A) = some (.keyPressWait 15) ∧ (at_ 0x0FFE 0xFF0A).keys = 0) := by
  decide

/-- A fault; `pc` at 0x1000, at 0x0FFF and at 0x0FFE; a word that is no instruction, and one that is. -/
theorem test_witness_StepRunsTheDecodedInstruction :
    ({ zero with fault := ⟨.stackUnderflow, 0x0200, 0x00EE⟩ } : State).fault.cause ≠ .noFault ∧
    0x0FFF < ({ zero with pc := 0x1000 } : State).pc.toNat ∧
    (zero.fault.cause = .noFault ∧ ({ zero with pc := 0x0FFF } : State).pc = 0x0FFF) ∧
    ((at_ 0x0FFE 0x8008).fault.cause = .noFault ∧ (at_ 0x0FFE 0x8008).pc.toNat ≤ 0x0FFE ∧
      decodeWord (Memory.get (at_ 0x0FFE 0x8008).mem 0x0FFE ++ Memory.get (at_ 0x0FFE 0x8008).mem 0x0FFF) =
        .error (.unknownOpcode (fieldsOf 0x8008))) ∧
    decodeWord (Memory.get (at_ 0x0FFE 0x6FFF).mem 0x0FFE ++ Memory.get (at_ 0x0FFE 0x6FFF).mem 0x0FFF) = .ok (.registerSetLiteral 15 0xFF) := by
  decide

theorem test_witness_FetchIsBigEndianAtAnyAlignment :
    (at_ 0x0FFE 0x1234).pc.toNat ≤ 0x0FFE ∧ (at_ 0x0001 0x1234).pc.toNat ≤ 0x0FFE := by decide

/-- Halted, and faulted; no actions, and every kind of action but a reset. -/
theorem test_witness_HaltAndFaultAreNoOpsUntilReset :
    (0x0FFF < ({ zero with pc := 0x1000 } : State).pc.toNat) ∧
    ({ zero with fault := ⟨.stackUnderflow, 0x0200, 0x00EE⟩ } : State).fault.cause ≠ .noFault ∧ NoReset [] ∧
    NoReset [.step, .keys 0x8000, .ack, .readFb, .step] := ⟨by decide, by decide, by simp [NoReset], by simp [NoReset]⟩

theorem test_witness_TickCountsStepsAndIsReadByNothing :
    guardStops { zero with pc := 0x1000 } = true ∧ guardStops { zero with pc := 0x0FFF } = false := by decide

/-- A quiet machine and a sounding one, neither at a timer write. -/
theorem test_witness_TimersLoseOnePerStepBeforeTheInstruction :
    (guardStops zero = false ∧ (∃ t : State, step zero = .next t) ∧ (∀ x, fetchedInstr zero ≠ some (.setDelayTimerRegister x)) ∧
      (∀ x, fetchedInstr zero ≠ some (.setSoundTimerRegister x)) ∧ zero.st = 0) ∧
    (guardStops { zero with st := 1 } = false ∧ (∃ t : State, step { zero with st := 1 } = .next t) ∧ ({ zero with st := 1 } : State).st ≠ 0) :=
  ⟨⟨by decide, ⟨_, rfl⟩, by decide, by decide, by decide⟩, by decide, ⟨_, rfl⟩, by decide⟩

/-- Each of the three timer instructions as the one a Step executes, at the last address it can be fetched from. -/
theorem test_witness_timer_instruction_fetched :
    guardStops (at_ 0x0FFE 0xFF07) = false ∧ fetchedInstr (at_ 0x0FFE 0xFF07) = some (.setDelayTimerValue 15) ∧
    fetchedInstr (at_ 0x0FFE 0xFF15) = some (.setDelayTimerRegister 15) ∧
    fetchedInstr (at_ 0x0FFE 0xFF18) = some (.setSoundTimerRegister 15) := by decide

theorem test_witness_UnknownOpcodeIsReportedAndHolds :
    guardStops (at_ 0x0FFE 0xF066) = false ∧ fetchWord (at_ 0x0FFE 0xF066) = some 0xF066 ∧
    decodeWord 0xF066 = .error (.unknownOpcode (fieldsOf 0xF066)) := by decide

theorem test_witness_FetchAtTheLastByteFaults :
    ({ zero with pc := 0x0FFF } : State).fault.cause = .noFault ∧ ({ zero with pc := 0x0FFF } : State).pc = 0x0FFF ∧
    (after 0x0000 { zero with pc := 0x0FFF }).fault.cause = .fetchBounds := by decide

/-- Each cause due at the first value where it is, and not due one before. -/
theorem test_witness_FaultsAreRaisedExactlyWhenDue :
    causeDue (.ret 0) zero = .stackUnderflow ∧ causeDue (.ret 0) { zero with sp := 1 } = .noFault ∧
    causeDue (.call 0) { zero with sp := 16, pc := 0x0FFE } = .stackOverflow ∧
    causeDue (.call 0) { zero with sp := 15, pc := 0x0FFE } = .returnAddressRange ∧ causeDue (.call 0) { zero with sp := 15, pc := 0x0FFD } = .noFault ∧
    causeDue (.skipNextKeyPressed 0) (withV [(0, 16)] zero) = .keyIndexRange ∧ causeDue (.skipNextKeyPressed 0) (withV [(0, 15)] zero) = .noFault ∧
    causeDue (.drawSprite 0 0 1) { zero with i := 0x1000 } = .dataBounds ∧ causeDue (.drawSprite 0 0 0) { zero with i := 0x1000 } = .noFault ∧
    causeDue (.storeBCDAtIndex 0) { zero with i := 0x0FFE } = .dataBounds ∧ causeDue (.readRegistersAtIndex 0) { zero with i := 0x0FFF } = .noFault := by
  decide

/-- A Step whose instruction faults, and one whose fetch does. -/
theorem test_witness_FaultingStepLatchesPcAndWord :
    guardStops (at_ 0x0200 0x00EE) = false ∧ step (at_ 0x0200 0x00EE) = .next (after 0x00EE zero) ∧ (after 0x00EE zero).fault.cause ≠ .noFault ∧
    guardStops (at_ 0x0FFF 0x0000) = false ∧ step (at_ 0x0FFF 0x0000) = .next (after 0x0000 { zero with pc := 0x0FFF }) ∧
    (after 0x0000 { zero with pc := 0x0FFF }).fault.cause ≠ .noFault := ⟨by decide, rfl, by decide, by decide, rfl, by decide⟩

theorem test_witness_FaultIsFinalUntilReset :
    ({ zero with fault := ⟨.dataBounds, 0x0300, 0xF055⟩ } : State).fault.cause ≠ .noFault ∧ NoReset [.step, .keys 1, .ack] ∧
    ([] : List Byte).length ≤ 3584 ∧ (fullImage 3584).length ≤ 3584 := ⟨by decide, by simp [NoReset], Nat.zero_le _, (length_fullImage 3584).le⟩

/-- A part an instruction may not write, for each kind of part. -/
theorem test_witness_StateIsWrittenOnlyByTheNamedInstructions :
    (∃ t : State, exec (.jump 0x300) zero = .next t) ∧ ¬mayWrite .index (.jump 0x300) ∧ ¬mayWrite .stack (.jump 0x300) ∧
    ¬mayWrite .delayTimer (.jump 0x300) ∧ ¬mayWrite .soundTimer (.jump 0x300) ∧ ¬mayWrite .pixels (.jump 0x300) ∧
    ¬mayWrite .redraw (.jump 0x300) ∧ ¬mayWrite .keys (.jump 0x300) ∧ ¬mayWrite .memory (.jump 0x300) ∧ ¬mayWrite .tick (.jump 0x300) ∧
    ¬mayWrite .faultRecord (.jump 0x300) ∧ ¬mayWrite .draws (.jump 0x300) ∧ ¬mayWrite .events (.jump 0x300) := by
  refine ⟨⟨_, rfl⟩, ?_⟩
  have h : ∀ c, ¬canRaise (.jump 0x300) c := by intro c; cases c <;> simp [canRaise]
  simp only [mayWrite]
  exact ⟨by simp, by simp, by simp, by simp, by simp, by simp, by simp, by simp, by simp, fun ⟨c, hc⟩ => h c hc, by simp, by simp⟩

theorem test_witness_RegistersAreWrittenOnlyByTheirInstructions :
    (∃ t : State, exec (.readRegistersAtIndex 14) zero = .next t) ∧ ¬mayWriteReg (.readRegistersAtIndex 14) 15 ∧
    ¬mayWriteReg (.registerSetRegisterAdd 1 2) 2 := ⟨⟨_, rfl⟩, by simp [mayWriteReg], by simp only [mayWriteReg]; decide⟩

/-- An instruction of each class that does not fault. -/
theorem test_witness_PcMovesByClass :
    causeDue (.clear 0) zero = .noFault ∧ causeDue (.skipNextKeyPressed 0) (withV [(0, 15)] zero) = .noFault ∧
    causeDue (.ret 0) { zero with sp := 16 } = .noFault ∧ causeDue (.keyPressWait 0) zero = .noFault ∧
    (∃ t : State, exec (.ret 0) { zero with sp := 16 } = .next t) ∧ ∃ t : State, exec (.keyPressWait 0) zero = .next t :=
  ⟨by decide, by decide, by decide, by decide, ⟨_, rfl⟩, _, rfl⟩

/-- The five ways: off the end, over it by a skip from 0x0FFE, 0x0FFC and 0x0FFD, and JumpTo. -/
theorem test_witness_HaltIsReachedOnlyOffTheEnd :
    (after 0x6001 { zero with pc := 0x0FFE }).pc = 0x1000 ∧ (after 0x3000 { zero with pc := 0x0FFE }).pc = 0x1002 ∧
    (after 0x3000 { zero with pc := 0x0FFC }).pc = 0x1000 ∧ (after 0x3000 { zero with pc := 0x0FFD }).pc = 0x1001 ∧
    (after 0xBFFF (withV [(0, 0xFF)] zero)).pc = 0x10FE ∧ guardStops (at_ 0x0FFE 0x6001) = false := by decide

theorem test_witness_RandomSourceIsConsultedByOneInstruction :
    ∀ x kk, fetchedInstr (at_ 0x0200 0x6001) ≠ some (.randBitwiseAnd x kk) := by
  intro x kk
  rw [show fetchedInstr (at_ 0x0200 0x6001) = some (.registerSetLiteral 0 0x01) from rfl]
  simp

/-- The reset state is a state that meets the invariant and steps. -/
theorem test_witness_StepKeepsTheInvariant : Inv zero ∧ ∃ t : State, step zero = .next t := ⟨⟨rfl, by decide, .inl rfl⟩, _, rfl⟩

theorem test_witness_HostActionsKeepTheInvariant :
    Inv zero ∧ (∃ t : State, hostAct (.keys 0xFFFF) zero = .next t) ∧ ∃ t : State, hostAct (.reset (fullImage 3584)) zero = .next t :=
  ⟨⟨rfl, by decide, .inl rfl⟩, ⟨_, rfl⟩, hostAct_reset_next _ (length_fullImage 3584).le⟩

/-- The empty image, the shortest with two bytes, and the largest one. -/
theorem test_witness_ResetLeavesTheInitialConditions :
    ([] : List Byte).length ≤ 3584 ∧ 2 ≤ [(0x12 : Byte), 0x00].length ∧ [(0x12 : Byte), 0x00].length ≤ 3584 ∧ (fullImage 3584).length ≤ 3584 :=
  ⟨Nat.zero_le _, by decide, by decide, (length_fullImage 3584).le⟩

/-- The font's first and last byte, the bytes around it, an image's first and last byte, and the end of memory. -/
theorem test_witness_ResetLoadsFontAndImage :
    (0 < 16 ∧ 4 < 5 ∧ 15 < 16) ∧ (0x050 ≤ 0x050 ∧ 0x1FF ≤ 0x1FF) ∧ 0 < [(0x12 : Byte), 0x00].length ∧ 1 < [(0x12 : Byte), 0x00].length ∧
    0x200 + [(0x12 : Byte), 0x00].length ≤ 0x202 ∧ 0x200 + [(0x12 : Byte), 0x00].length ≤ 0x0FFF := by decide

theorem test_witness_NoStepWritesTheKeys : ∃ t : State, step { at_ 0x0200 0xF10A with keys := 0x8000 } = .next t := ⟨_, rfl⟩

end Sys2Proof.Tests
end

/-! The word of a decoded instruction: every row of the opcode map encodes back to the word that selected it (R61, R64). -/

namespace Sys2Proof

/-- Every word whose fields select the row is the word of the instruction the row makes of them. -/
def Row.EncodesBack (r : Row) : Prop :=
  ∀ w : Word, r.selects (fieldsOf w) = true → encodeWord (r.make (fieldsOf w)) = w

/-- A row selected by its group alone, in format A (R62). -/
theorem Row.encodesBack_formatA {g : Nibble} {make : Fields → Instr}
    (h : ∀ f, encodeWord (make f) = formatA g f.nnn) : Row.EncodesBack ⟨g, .any, make⟩ := by
  intro w hw
  have hg : (fieldsOf w).group = g := by simpa [Row.selects] using hw
  rw [h, ← hg]
  exact formatA_fieldsOf w

/-- A row selected by its group alone, in format XK (R62). -/
theorem Row.encodesBack_formatXK {g : Nibble} {make : Fields → Instr}
    (h : ∀ f, encodeWord (make f) = formatXK g f.x f.kk) : Row.EncodesBack ⟨g, .any, make⟩ := by
  intro w hw
  have hg : (fieldsOf w).group = g := by simpa [Row.selects] using hw
  rw [h, ← hg]
  exact formatXK_fieldsOf w

/-- A row selected by its group alone, in format XY (R62, R66). -/
theorem Row.encodesBack_formatXY {g : Nibble} {make : Fields → Instr}
    (h : ∀ f, encodeWord (make f) = formatXY g f.x f.y f.n) : Row.EncodesBack ⟨g, .any, make⟩ := by
  intro w hw
  have hg : (fieldsOf w).group = g := by simpa [Row.selects] using hw
  rw [h, ← hg]
  exact formatXY_fieldsOf w

/-- A row selected by its group and `n`, in format XY (R62, R67). -/
theorem Row.encodesBack_onN {g v : Nibble} {make : Fields → Instr}
    (h : ∀ f, encodeWord (make f) = formatXY g f.x f.y v) : Row.EncodesBack ⟨g, .onN v, make⟩ := by
  intro w hw
  obtain ⟨hg, hn⟩ : (fieldsOf w).group = g ∧ (fieldsOf w).n = v := by simpa [Row.selects] using hw
  rw [h, ← hg, ← hn]
  exact formatXY_fieldsOf w

/-- A row selected by its group and `kk`, in format Z or XF (R62, R65, R68, R69). -/
theorem Row.encodesBack_onKk {g : Nibble} {v : Byte} {make : Fields → Instr}
    (h : ∀ f, encodeWord (make f) = formatXK g f.x v) : Row.EncodesBack ⟨g, .onKk v, make⟩ := by
  intro w hw
  obtain ⟨hg, hk⟩ : (fieldsOf w).group = g ∧ (fieldsOf w).kk = v := by simpa [Row.selects] using hw
  rw [h, ← hg, ← hk]
  exact formatXK_fieldsOf w

theorem encodesBack_rowsGroup0 : ∀ r ∈ rowsGroup0, r.EncodesBack := by
  simp only [rowsGroup0, List.forall_mem_cons]
  exact ⟨Row.encodesBack_onKk fun _ => rfl, Row.encodesBack_onKk fun _ => rfl,
    Row.encodesBack_formatA fun _ => rfl, List.forall_mem_nil _⟩

theorem encodesBack_rowsGroups1to7 : ∀ r ∈ rowsGroups1to7, r.EncodesBack := by
  simp only [rowsGroups1to7, List.forall_mem_cons]
  exact ⟨Row.encodesBack_formatA fun _ => rfl, Row.encodesBack_formatA fun _ => rfl,
    Row.encodesBack_formatXK fun _ => rfl, Row.encodesBack_formatXK fun _ => rfl,
    Row.encodesBack_formatXY fun _ => rfl, Row.encodesBack_formatXK fun _ => rfl,
    Row.encodesBack_formatXK fun _ => rfl, List.forall_mem_nil _⟩

theorem encodesBack_rowsGroup8 : ∀ r ∈ rowsGroup8, r.EncodesBack := by
  simp only [rowsGroup8, List.forall_mem_cons, List.not_mem_nil, false_implies, implies_true, and_true]
  and_intros <;> exact Row.encodesBack_onN fun _ => rfl

theorem encodesBack_rowsGroups9toD : ∀ r ∈ rowsGroups9toD, r.EncodesBack := by
  simp only [rowsGroups9toD, List.forall_mem_cons]
  exact ⟨Row.encodesBack_formatXY fun _ => rfl, Row.encodesBack_formatA fun _ => rfl,
    Row.encodesBack_formatA fun _ => rfl, Row.encodesBack_formatXK fun _ => rfl,
    Row.encodesBack_formatXY fun _ => rfl, List.forall_mem_nil _⟩

theorem encodesBack_rowsGroupE : ∀ r ∈ rowsGroupE, r.EncodesBack := by
  simp only [rowsGroupE, List.forall_mem_cons, List.not_mem_nil, false_implies, implies_true, and_true]
  and_intros <;> exact Row.encodesBack_onKk fun _ => rfl

theorem encodesBack_rowsGroupF : ∀ r ∈ rowsGroupF, r.EncodesBack := by
  simp only [rowsGroupF, List.forall_mem_cons, List.not_mem_nil, false_implies, implies_true, and_true]
  and_intros <;> exact Row.encodesBack_onKk fun _ => rfl

theorem encodesBack_opcodeTable : ∀ r ∈ opcodeTable, r.EncodesBack := by
  simp only [opcodeTable, List.forall_mem_append, and_assoc]
  exact ⟨encodesBack_rowsGroup0, encodesBack_rowsGroups1to7, encodesBack_rowsGroup8,
    encodesBack_rowsGroups9toD, encodesBack_rowsGroupE, encodesBack_rowsGroupF⟩

/-- An instruction carries every bit of the word it was decoded from (log 3). -/
theorem encodeWord_of_decodeWord {w : Word} {i : Instr} (h : decodeWord w = .ok i) : encodeWord i = w := by
  obtain ⟨r, hr, hs, hd⟩ | ⟨-, hd⟩ := decodeWord_cases w
  · obtain rfl : r.make (fieldsOf w) = i := by simpa [hd] using h
    exact encodesBack_opcodeTable r hr w hs
  · simp [hd] at h

end Sys2Proof

/-! What the execute phase can do to the fault record, `pc` and memory, said once for every instruction. -/

namespace Sys2Proof.Machine

/-- What every instruction that completes keeps to: the fault record as it was, `pc` kept, advanced or at a transfer's target (R86),
memory as it was or after one store (R42). -/
structure Completed (s t : State) : Prop where
  fault : t.fault = s.fault
  pc : t.pc = s.pc ∨ t.pc = s.pc + 2 ∨ t.pc = s.pc + 4 ∨ t.pc.toNat ≤ 0x10FE
  mem : t.mem = s.mem ∨ ∃ a bs, memWrite s.mem a bs = some t.mem

/-- The end of an instruction that wrote neither fault record, `pc` nor memory (R86). -/
theorem completed_endInstr {s u : State} (hf : u.fault = s.fault) (hp : u.pc = s.pc) (hm : u.mem = s.mem) :
    Completed s u.endInstr where
  fault := hf
  pc := .inr (.inl (by rw [endInstr_pc, hp]))
  mem := .inl hm

/-- The end of an instruction that stored to memory (R86). -/
theorem completed_endInstr_setMem {s : State} {a : Nat} {bs : List Byte} {m : Memory} (h : memWrite s.mem a bs = some m) :
    Completed s (s.setMem m).endInstr where
  fault := rfl
  pc := .inr (.inl rfl)
  mem := .inr ⟨a, bs, h⟩

theorem completed_skipInstr (c : Bool) (s : State) : Completed s (s.skipInstr c) where
  fault := rfl
  pc := by cases c with
    | true => exact .inr (.inr (.inl rfl))
    | false => exact .inr (.inl rfl)
  mem := .inl rfl

/-- A transfer to a target within the reach of JumpTo (R13). -/
theorem completed_setPc {s u : State} {a : Word} (hf : u.fault = s.fault) (hm : u.mem = s.mem) (ha : a.toNat ≤ 0x10FE) :
    Completed s (u.setPc a) where
  fault := hf
  pc := .inr (.inr (.inr ha))
  mem := .inl hm

theorem addrOf_toNat (nnn : Addr12) : (addrOf nnn).toNat = nnn.toNat := by
  simp only [addrOf]; bv_omega

theorem regAsWord_toNat (s : State) (r : Reg) : (regAsWord s r).toNat = (s.getV r).toNat := by
  simp only [regAsWord]; bv_omega

/-- A 12-bit target is within reach (R91 to R93). -/
theorem addrOf_le (nnn : Addr12) : (addrOf nnn).toNat ≤ 0x10FE := by
  rw [addrOf_toNat]; omega

/-- The target of JumpTo is within reach: 0x0FFF + 0xFF (R13, R94). -/
theorem regAsWord_add_addrOf_le (s : State) (r : Reg) (nnn : Addr12) : (regAsWord s r + addrOf nnn).toNat ≤ 0x10FE := by
  rw [BitVec.toNat_add, regAsWord_toNat, addrOf_toNat]; omega

/-- All that the execute phase can do, as far as the invariant sees it: it completes, or it raises a fault of its own with its own word (R161, R168). -/
theorem exec_cases (i : Instr) (s : State) :
    (∃ t, exec i s = .next t ∧ Completed s t) ∨
      ∃ c, canRaise i c ∧ exec i s = .next (raiseFault c (encodeWord i) s) := by
  cases i with
  | clear | jumpToMachineCode | registerSetLiteral | registerAddAssign | registerSetRegister | bitwiseOr | bitwiseAnd | bitwiseXor
  | registerSetRegisterAdd | registerSetRegisterSub | registerSetRegisterShr | registerSetRegisterSubn | registerSetRegisterShl
  | setIndex | randBitwiseAnd | setDelayTimerValue | setDelayTimerRegister | setSoundTimerRegister | indexAddAssignRegister
  | setIndexToDigitSprite => exact .inl ⟨_, rfl, completed_endInstr rfl rfl rfl⟩
  | skipEqualLiteral | skipNotEqualLiteral | skipEqualRegister | skipNotEqualRegister =>
    exact .inl ⟨_, rfl, completed_skipInstr _ s⟩
  | jump nnn => exact .inl ⟨_, rfl, completed_setPc rfl rfl (addrOf_le nnn)⟩
  | jumpTo nnn => exact .inl ⟨_, rfl, completed_setPc rfl rfl (regAsWord_add_addrOf_le s 0 nnn)⟩
  | ret x =>
    obtain ⟨-, h⟩ | ⟨_, h⟩ := popReturn_cases s <;> simp only [exec, execRet, h, faultIn]
    · exact .inr ⟨.stackUnderflow, ⟨x, rfl⟩, rfl⟩
    · exact .inl ⟨_, rfl, completed_setPc rfl rfl (addrOf_le _)⟩
  | call nnn =>
    obtain ⟨-, h⟩ | ⟨_, h⟩ := pushReturn_cases (returnAddress s) s <;> simp only [exec, execCall, h, faultIn]
    · exact .inr ⟨.stackOverflow, ⟨nnn, rfl⟩, rfl⟩
    · split
      · exact .inl ⟨_, rfl, completed_setPc rfl rfl (addrOf_le nnn)⟩
      · exact .inr ⟨.returnAddressRange, ⟨nnn, rfl⟩, rfl⟩
  | drawSprite x y n =>
    obtain ⟨-, h⟩ | ⟨-, h⟩ := memRead_cases s.mem (dataBase s) n.toNat <;> simp only [exec, execDrawSprite, h, faultIn]
    · exact .inl ⟨_, rfl, completed_endInstr rfl rfl rfl⟩
    · exact .inr ⟨.dataBounds, .inl ⟨x, y, n, rfl⟩, rfl⟩
  | skipNextKeyPressed x =>
    obtain ⟨-, h⟩ | ⟨_, h⟩ := keyIndex_cases s x <;> simp only [exec, execSkipNextKeyPressed, h, faultIn]
    · exact .inr ⟨.keyIndexRange, .inl ⟨x, rfl⟩, rfl⟩
    · exact .inl ⟨_, rfl, completed_skipInstr _ s⟩
  | skipNextKeyNotPressed x =>
    obtain ⟨-, h⟩ | ⟨_, h⟩ := keyIndex_cases s x <;> simp only [exec, execSkipNextKeyNotPressed, h, faultIn]
    · exact .inr ⟨.keyIndexRange, .inr ⟨x, rfl⟩, rfl⟩
    · exact .inl ⟨_, rfl, completed_skipInstr _ s⟩
  | keyPressWait x =>
    obtain ⟨-, h⟩ | ⟨_, -, -, h⟩ := firstKeyDown_cases s <;> simp only [exec, execKeyPressWait, h]
    · exact .inl ⟨s, rfl, rfl, .inl rfl, .inl rfl⟩
    · exact .inl ⟨_, rfl, completed_endInstr rfl rfl rfl⟩
  | storeBCDAtIndex x =>
    obtain ⟨-, h⟩ | ⟨-, h⟩ := memWrite_cases s.mem (dataBase s) (bcdDigits (s.getV x)) <;>
      simp only [exec, execStoreBCDAtIndex, h, faultIn]
    · exact .inl ⟨_, rfl, completed_endInstr_setMem h⟩
    · exact .inr ⟨.dataBounds, .inr (.inl ⟨x, rfl⟩), rfl⟩
  | storeRegistersAtIndex x =>
    obtain ⟨-, h⟩ | ⟨-, h⟩ := memWrite_cases s.mem (dataBase s) (regsUpTo s x) <;>
      simp only [exec, execStoreRegistersAtIndex, h, faultIn]
    · exact .inl ⟨_, rfl, completed_endInstr_setMem h⟩
    · exact .inr ⟨.dataBounds, .inr (.inr (.inl ⟨x, rfl⟩)), rfl⟩
  | readRegistersAtIndex x =>
    obtain ⟨-, h⟩ | ⟨-, h⟩ := memRead_cases s.mem (dataBase s) (x.val + 1) <;>
      simp only [exec, execReadRegistersAtIndex, h, faultIn]
    · exact .inl ⟨_, rfl, completed_endInstr (setRegs_fault ..) (setRegs_pc ..) (setRegs_mem ..)⟩
    · exact .inr ⟨.dataBounds, .inr (.inr (.inr ⟨x, rfl⟩)), rfl⟩

/-! The invariant, kept by a Step and by every action of the host. -/

/-- The invariant sees only memory, `pc` and the fault record. -/
theorem inv_congr {s t : State} (hm : t.mem = s.mem) (hp : t.pc = s.pc) (hf : t.fault = s.fault) (h : Inv s) : Inv t := by
  have hw : fetchWord t = fetchWord s := fetchWord_congr hp fun a => by rw [hm]
  simpa only [Inv, FaultRecordSound, hm, hp, hf, hw] using h

/-- A sound fault record without a cause is the clear one (R23). -/
theorem fault_eq_clear {s : State} (h : FaultRecordSound s) (hc : s.fault.cause = .noFault) : s.fault = ⟨.noFault, 0, 0⟩ := by
  obtain h | ⟨h, -⟩ | ⟨i, hi, -⟩ := h
  · exact h
  · simp [h] at hc
  · rw [hc] at hi; exact hi.elim

theorem wf_of_completed {s t : State} (h : Completed s t) (hm : Memory.wf s.mem = true) : Memory.wf t.mem = true := by
  obtain h | ⟨a, bs, h⟩ := h.mem
  · rwa [h]
  · exact wf_memWrite hm h

/-- From a `pc` that a word is fetched at, no instruction leads above 0x10FE (R13). -/
theorem pc_le_of_completed {s t : State} (h : Completed s t) (hp : s.pc.toNat ≤ 0x0FFE) : t.pc.toNat ≤ 0x10FE := by
  obtain h | h | h | h := h.pc
  · rw [h]; omega
  · rw [h]; bv_omega
  · rw [h]; bv_omega
  · exact h

/-- An instruction executed where it was fetched, with no fault latched, keeps the invariant. -/
theorem inv_of_exec {s t : State} {w : Word} {i : Instr} (hs : Inv s) (hc : s.fault.cause = .noFault)
    (hw : fetchWord s = some w) (hd : decodeWord w = .ok i) (h : exec i s = .next t) : Inv t := by
  obtain ⟨hm, hp, hf⟩ := hs
  obtain ⟨u, hu, hcomp⟩ | ⟨c, hi, hu⟩ := exec_cases i s
  · obtain rfl : u = t := by simpa [hu] using h
    obtain ⟨hpc, -⟩ | ⟨-, hn⟩ := fetchWord_cases s
    · exact ⟨wf_of_completed hcomp hm, pc_le_of_completed hcomp hpc, .inl (hcomp.fault.trans (fault_eq_clear hf hc))⟩
    · simp [hn] at hw
  · rw [encodeWord_of_decodeWord hd] at hu
    obtain rfl : raiseFault c w s = t := by simpa [hu] using h
    exact ⟨hm, hp, .inr (.inr ⟨i, hi, rfl, hw, hd⟩)⟩

/-- The step lemma of the invariant: every kind of Step keeps it (R80). -/
theorem inv_of_step {s t : State} (hs : Inv s) (h : step s = .next t) : Inv t := by
  have hph : Inv (phases s) := inv_congr rfl rfl rfl hs
  obtain ⟨-, hu⟩ | ⟨-, hpc, -, hu⟩ | ⟨w, -, -, -, hu⟩ | ⟨w, i, hg, hw, hd, hu⟩ := step_cases s
  · obtain rfl : s = t := by simpa [hu] using h
    exact hs
  · obtain rfl : fetchFault (phases s) = t := by simpa [hu] using h
    obtain ⟨hm, hp, -⟩ := hph
    exact ⟨hm, hp, .inr (.inl ⟨by rw [fetchFault_fault, phases_pc, hpc], hpc⟩)⟩
  · obtain rfl : reportUnknown w (phases s) = t := by simpa [hu] using h
    exact inv_congr rfl rfl rfl hph
  · exact inv_of_exec hph ((guardStops_eq_false s).1 hg).1 hw hd (hu ▸ h)

/-- All that H-RESET can do: load an image that fits, or refuse it (R190, R195). -/
theorem hostReset_cases (image : List Byte) (s : State) :
    (image.length ≤ 3584 ∧ hostReset image s =
      .next { State.reset with mem := imageMem image, rndIndex := s.rndIndex, events := s.events }) ∨
      (3584 < image.length ∧ hostReset image s = .refused .imageTooLarge) := by
  by_cases h : image.length ≤ 3584
  · exact .inl ⟨h, if_pos h⟩
  · exact .inr ⟨by omega, if_neg h⟩

theorem wf_imageMem {image : List Byte} (h : image.length ≤ 3584) : Memory.wf (imageMem image) = true :=
  wf_setBytes wf_reset (by simp only [Config.progBase]; omega)

/-- A reset meets the invariant whatever the state was before it (R190). -/
theorem inv_of_hostReset {image : List Byte} {s t : State} (h : hostReset image s = .next t) : Inv t := by
  obtain ⟨hl, hu⟩ | ⟨-, hu⟩ := hostReset_cases image s
  · rw [hu, Host.Outcome.next.injEq] at h
    subst h
    have hp : (0x0200 : Word).toNat ≤ 0x10FE := by decide
    exact ⟨wf_imageMem hl, hp, .inl rfl⟩
  · simp [hu] at h

/-- Settles O49: by the kind of action, a Step by `inv_of_step`, the keys and the acknowledge because they write nothing the invariant sees. -/
theorem hostActionsKeepTheInvariant : Obligations.HostActionsKeepTheInvariant := by
  intro a s t hs h
  cases a with
  | reset image => exact inv_of_hostReset h
  | step => exact inv_of_step hs h
  | keys k =>
    obtain rfl : hostKeys k s = t := by simpa [hostAct] using h
    exact inv_congr rfl rfl rfl hs
  | ack =>
    obtain rfl : hostAck s = t := by simpa [hostAct] using h
    exact inv_congr rfl rfl rfl hs
  | readFb =>
    obtain rfl : s = t := by simpa [hostAct] using h
    exact hs

/-! The frames of the host's other actions (R2). -/

theorem hostKeys_keyDown (k : BitVec 16) (s : State) (j : Fin 16) : (hostKeys k s).keyDown j = k.getLsbD j.val := rfl

theorem hostKeys_unchanged (k : BitVec 16) (s : State) : UnchangedBut [.keys] s (hostKeys k s) := by
  intro p hp
  cases p with
  | keys => simp at hp
  | _ => simp [Part.same, hostKeys, State.getV]

theorem hostAck_unchanged (s : State) : UnchangedBut [.redraw] s (hostAck s) := by
  intro p hp
  cases p with
  | redraw => simp at hp
  | _ => simp [Part.same, hostAck, State.getV]

/-- Settles O52: each action writes the one field it names, and the read writes none. -/
theorem hostActionsTouchOnlyTheirOwnState : Obligations.HostActionsTouchOnlyTheirOwnState := fun s k =>
  ⟨⟨hostKeys k s, rfl, hostKeys_keyDown k s, hostKeys_unchanged k s⟩, ⟨hostAck s, rfl, rfl, hostAck_unchanged s⟩, rfl, rfl⟩

end Sys2Proof.Machine

/-! The frame of every update of the state, and of the execute phase: which parts and which registers an instruction leaves as they were
(10_state.md sections 1 and 2). -/

namespace Sys2Proof.Machine

open Sys2Proof.Claims

/-- Settles O48: the step lemma of the invariant, over the kinds of Step. -/
theorem stepKeepsTheInvariant : Obligations.StepKeepsTheInvariant := fun _ _ => inv_of_step

/-- Settles O47: nothing is listed in memory, `pc` is 0x0200 and the fault record is clear. -/
theorem resetMeetsTheInvariant : Obligations.ResetMeetsTheInvariant :=
  have hpc : State.reset.pc.toNat ≤ 0x10FE := by decide
  ⟨wf_reset, hpc, .inl rfl⟩

theorem Part.same_refl (p : Part) (s : State) : p.same s s := by cases p <;> simp [Part.same]

theorem Part.same_trans {p : Part} {s t u : State} (h : p.same s t) (h' : p.same t u) : p.same s u := by
  cases p <;> simp_all [Part.same]

theorem UnchangedBut.refl (ps : List Part) (s : State) : UnchangedBut ps s s := fun p _ => p.same_refl s

/-- Two changes in a row leave alone what both leave alone. -/
theorem UnchangedBut.trans {ps qs : List Part} {s t u : State} (h : UnchangedBut ps s t) (h' : UnchangedBut qs t u) :
    UnchangedBut (ps ++ qs) s u := by
  intro p hp
  rw [List.mem_append, not_or] at hp
  exact Part.same_trans (h p hp.1) (h' p hp.2)

theorem unchangedBut_setV (s : State) (r : Reg) (b : Byte) : UnchangedBut [.regs] s (s.setV r b) :=
  fun p hp => by cases p <;> simp_all [Part.same]

theorem unchangedBut_setRegs (s : State) (v : Vector Byte 16) : UnchangedBut [.regs] s (s.setRegs v) :=
  fun p hp => by cases p <;> simp_all [Part.same]

theorem unchangedBut_setFlag (s : State) (f : Bool) : UnchangedBut [.regs] s (s.setFlag f) :=
  unchangedBut_setV s VF _

theorem unchangedBut_setResultFlag (s : State) (r : Reg) (b : Byte) (f : Bool) : UnchangedBut [.regs] s (s.setResultFlag r b f) :=
  fun p hp => by cases p <;> simp_all [Part.same]

theorem unchangedBut_setI (s : State) (a : Word) : UnchangedBut [.index] s (s.setI a) :=
  fun p hp => by cases p <;> simp_all [Part.same]

theorem unchangedBut_setPc (s : State) (a : Word) : UnchangedBut [.pc] s (s.setPc a) :=
  fun p hp => by cases p <;> simp_all [Part.same]

theorem unchangedBut_endInstr (s : State) : UnchangedBut [.pc] s s.endInstr := unchangedBut_setPc s _

theorem unchangedBut_skipInstr (c : Bool) (s : State) : UnchangedBut [.pc] s (s.skipInstr c) := unchangedBut_setPc s _

theorem unchangedBut_setDt (s : State) (b : Byte) : UnchangedBut [.delayTimer] s (s.setDt b) :=
  fun p hp => by cases p <;> simp_all [Part.same]

theorem unchangedBut_setSt (s : State) (b : Byte) : UnchangedBut [.soundTimer] s (s.setSt b) :=
  fun p hp => by cases p <;> simp_all [Part.same]

theorem unchangedBut_setMem (s : State) (m : Memory) : UnchangedBut [.memory] s (s.setMem m) :=
  fun p hp => by cases p <;> simp_all [Part.same]

theorem unchangedBut_setDisplay (s : State) (fb : Framebuffer) : UnchangedBut [.pixels, .redraw] s (s.setDisplay fb) :=
  fun p hp => by cases p <;> simp_all [Part.same]

theorem unchangedBut_drawRandom (s : State) : UnchangedBut [.draws] s (drawRandom s).2 :=
  fun p hp => by cases p <;> simp_all [Part.same, drawRandom, State.getV]

/-- Taking a fault writes the record and nothing else (R168). -/
theorem unchangedBut_raiseFault (c : FaultCause) (w : Word) (s : State) : UnchangedBut [.faultRecord] s (raiseFault c w s) :=
  fun p hp => by cases p <;> simp_all [Part.same]

/-- A push or a pop writes the stack and its pointer and nothing else (R14, R15). -/
theorem unchangedBut_stack (s : State) (stk : Vector Addr12 16) (sp : Fin 17) :
    UnchangedBut [.stack] s { s with stk := stk, sp := sp } :=
  fun p hp => by cases p <;> simp_all [Part.same, State.getV]

/-- The parts of the state an instruction that completes may write, in the order it writes them. -/
def writtenParts : Instr → List Part
  | .clear _ => [.pixels, .redraw, .pc]
  | .ret _ | .call _ => [.stack, .pc]
  | .jumpToMachineCode _ | .jump _ | .jumpTo _ => [.pc]
  | .skipEqualLiteral _ _ | .skipNotEqualLiteral _ _ | .skipEqualRegister _ _ _ | .skipNotEqualRegister _ _ _ => [.pc]
  | .skipNextKeyPressed _ | .skipNextKeyNotPressed _ => [.pc]
  | .registerSetLiteral _ _ | .registerAddAssign _ _ => [.regs, .pc]
  | .registerSetRegister _ _ | .bitwiseOr _ _ | .bitwiseAnd _ _ | .bitwiseXor _ _ => [.regs, .pc]
  | .registerSetRegisterAdd _ _ | .registerSetRegisterSub _ _ | .registerSetRegisterSubn _ _ => [.regs, .pc]
  | .registerSetRegisterShr _ _ | .registerSetRegisterShl _ _ => [.regs, .pc]
  | .randBitwiseAnd _ _ => [.draws, .regs, .pc]
  | .drawSprite _ _ _ => [.pixels, .redraw, .regs, .pc]
  | .setDelayTimerValue _ | .keyPressWait _ | .readRegistersAtIndex _ => [.regs, .pc]
  | .setDelayTimerRegister _ => [.delayTimer, .pc]
  | .setSoundTimerRegister _ => [.soundTimer, .pc]
  | .setIndex _ | .indexAddAssignRegister _ | .setIndexToDigitSprite _ => [.index, .pc]
  | .storeBCDAtIndex _ | .storeRegistersAtIndex _ => [.memory, .pc]

/-- The state table names every instruction as a writer of the parts it writes (10_state.md section 1). -/
theorem mayWrite_of_mem_writtenParts (i : Instr) : ∀ p ∈ writtenParts i, mayWrite p i := by
  cases i <;> simp [writtenParts, mayWrite]

/-- What an instruction leaves as it was when it completes: every part it does not write, every register it is not given a write of. -/
structure Framed (i : Instr) (s t : State) : Prop where
  parts : UnchangedBut (writtenParts i) s t
  regs : ∀ r : Reg, ¬mayWriteReg i r → t.getV r = s.getV r

/-- The end of an instruction that wrote `u` keeps to the frame when `u` does, `pc` aside (R86). -/
theorem framed_endInstr {i : Instr} {s u : State} {ps : List Part} (hw : writtenParts i = ps ++ [.pc]) (hp : UnchangedBut ps s u)
    (hr : ∀ r : Reg, ¬mayWriteReg i r → u.getV r = s.getV r) : Framed i s u.endInstr where
  parts := hw ▸ hp.trans (unchangedBut_endInstr u)
  regs := hr

theorem setV_getV_of_ne {s : State} {x r : Reg} {b : Byte} (h : r ≠ x) : (s.setV x b).getV r = s.getV r := by
  simp [h]

theorem setResultFlag_getV_of_ne {s : State} {x r : Reg} {b : Byte} {f : Bool} (h : ¬(r = x ∨ r = VF)) :
    (s.setResultFlag x b f).getV r = s.getV r := by
  rw [not_or] at h
  simp [h]

/-- A load of the registers up to `x` leaves those above `x` (R135). -/
theorem setRegs_getV_loadRegs_of_not_le {s : State} {x r : Reg} {bs : List Byte} (hl : bs.length = x.val + 1) (h : ¬r.val ≤ x.val) :
    (s.setRegs (loadRegs bs s.v)).getV r = s.getV r := by
  rw [setRegs_getV_loadRegs, dif_neg (by omega)]; rfl

/-- All that the execute phase can do, as far as the frame sees it: it completes within its frame, or it raises a fault of its own (R86, R168). -/
theorem exec_framed_or_fault (i : Instr) (s : State) :
    (∃ t, exec i s = .next t ∧ Framed i s t) ∨ ∃ c, canRaise i c ∧ exec i s = .next (raiseFault c (encodeWord i) s) := by
  cases i with
  | registerSetLiteral | registerAddAssign | registerSetRegister | bitwiseOr | bitwiseAnd | bitwiseXor | setDelayTimerValue =>
    exact .inl ⟨_, rfl, framed_endInstr rfl (unchangedBut_setV s _ _) fun _ => setV_getV_of_ne⟩
  | registerSetRegisterAdd | registerSetRegisterSub | registerSetRegisterShr | registerSetRegisterSubn | registerSetRegisterShl =>
    exact .inl ⟨_, rfl, framed_endInstr rfl (unchangedBut_setResultFlag s _ _ _) fun _ => setResultFlag_getV_of_ne⟩
  | randBitwiseAnd =>
    exact .inl ⟨_, rfl, framed_endInstr rfl ((unchangedBut_drawRandom s).trans (unchangedBut_setV _ _ _))
      fun _ => setV_getV_of_ne⟩
  | skipEqualLiteral | skipNotEqualLiteral | skipEqualRegister | skipNotEqualRegister =>
    exact .inl ⟨_, rfl, unchangedBut_skipInstr _ s, fun _ _ => rfl⟩
  | jumpToMachineCode => exact .inl ⟨_, rfl, framed_endInstr rfl (.refl [] s) fun _ _ => rfl⟩
  | jump | jumpTo => exact .inl ⟨_, rfl, unchangedBut_setPc s _, fun _ _ => rfl⟩
  | setIndex | indexAddAssignRegister | setIndexToDigitSprite =>
    exact .inl ⟨_, rfl, framed_endInstr rfl (unchangedBut_setI s _) fun _ _ => rfl⟩
  | setDelayTimerRegister => exact .inl ⟨_, rfl, framed_endInstr rfl (unchangedBut_setDt s _) fun _ _ => rfl⟩
  | setSoundTimerRegister => exact .inl ⟨_, rfl, framed_endInstr rfl (unchangedBut_setSt s _) fun _ _ => rfl⟩
  | clear => exact .inl ⟨_, rfl, framed_endInstr rfl (unchangedBut_setDisplay s _) fun _ _ => rfl⟩
  | ret x =>
    obtain ⟨-, h⟩ | ⟨_, h⟩ := popReturn_cases s <;> simp only [exec, execRet, h, faultIn]
    · exact .inr ⟨.stackUnderflow, ⟨x, rfl⟩, rfl⟩
    · exact .inl ⟨_, rfl, (unchangedBut_stack s _ _).trans (unchangedBut_setPc _ _), fun _ _ => rfl⟩
  | call nnn =>
    obtain ⟨-, h⟩ | ⟨_, h⟩ := pushReturn_cases (returnAddress s) s <;> simp only [exec, execCall, h, faultIn]
    · exact .inr ⟨.stackOverflow, ⟨nnn, rfl⟩, rfl⟩
    · split
      · exact .inl ⟨_, rfl, (unchangedBut_stack s _ _).trans (unchangedBut_setPc _ _), fun _ _ => rfl⟩
      · exact .inr ⟨.returnAddressRange, ⟨nnn, rfl⟩, rfl⟩
  | drawSprite x y n =>
    obtain ⟨-, h⟩ | ⟨-, h⟩ := memRead_cases s.mem (dataBase s) n.toNat <;> simp only [exec, execDrawSprite, h, faultIn]
    · exact .inl ⟨_, rfl, framed_endInstr rfl ((unchangedBut_setDisplay s _).trans (unchangedBut_setFlag _ _))
        fun _ => setV_getV_of_ne⟩
    · exact .inr ⟨.dataBounds, .inl ⟨x, y, n, rfl⟩, rfl⟩
  | skipNextKeyPressed x =>
    obtain ⟨-, h⟩ | ⟨_, h⟩ := keyIndex_cases s x <;> simp only [exec, execSkipNextKeyPressed, h, faultIn]
    · exact .inr ⟨.keyIndexRange, .inl ⟨x, rfl⟩, rfl⟩
    · exact .inl ⟨_, rfl, unchangedBut_skipInstr _ s, fun _ _ => rfl⟩
  | skipNextKeyNotPressed x =>
    obtain ⟨-, h⟩ | ⟨_, h⟩ := keyIndex_cases s x <;> simp only [exec, execSkipNextKeyNotPressed, h, faultIn]
    · exact .inr ⟨.keyIndexRange, .inr ⟨x, rfl⟩, rfl⟩
    · exact .inl ⟨_, rfl, unchangedBut_skipInstr _ s, fun _ _ => rfl⟩
  | keyPressWait x =>
    obtain ⟨-, h⟩ | ⟨_, -, -, h⟩ := firstKeyDown_cases s <;> simp only [exec, execKeyPressWait, h]
    · exact .inl ⟨s, rfl, .refl _ s, fun _ _ => rfl⟩
    · exact .inl ⟨_, rfl, framed_endInstr rfl (unchangedBut_setV s _ _) fun _ => setV_getV_of_ne⟩
  | storeBCDAtIndex x =>
    obtain ⟨-, h⟩ | ⟨-, h⟩ := memWrite_cases s.mem (dataBase s) (bcdDigits (s.getV x)) <;>
      simp only [exec, execStoreBCDAtIndex, h, faultIn]
    · exact .inl ⟨_, rfl, framed_endInstr rfl (unchangedBut_setMem s _) fun _ _ => rfl⟩
    · exact .inr ⟨.dataBounds, .inr (.inl ⟨x, rfl⟩), rfl⟩
  | storeRegistersAtIndex x =>
    obtain ⟨-, h⟩ | ⟨-, h⟩ := memWrite_cases s.mem (dataBase s) (regsUpTo s x) <;>
      simp only [exec, execStoreRegistersAtIndex, h, faultIn]
    · exact .inl ⟨_, rfl, framed_endInstr rfl (unchangedBut_setMem s _) fun _ _ => rfl⟩
    · exact .inr ⟨.dataBounds, .inr (.inr (.inl ⟨x, rfl⟩)), rfl⟩
  | readRegistersAtIndex x =>
    obtain ⟨-, h⟩ | ⟨-, h⟩ := memRead_cases s.mem (dataBase s) (x.val + 1) <;>
      simp only [exec, execReadRegistersAtIndex, h, faultIn]
    · exact .inl ⟨_, rfl, framed_endInstr rfl (unchangedBut_setRegs s _)
        fun _ => setRegs_getV_loadRegs_of_not_le (length_bytes ..)⟩
    · exact .inr ⟨.dataBounds, .inr (.inr (.inr ⟨x, rfl⟩)), rfl⟩

/-- Settles O42: a completed instruction writes only its own parts, and a fault only the record, of which its instruction is a named writer. -/
theorem stateIsWrittenOnlyByTheNamedInstructions : Obligations.StateIsWrittenOnlyByTheNamedInstructions := by
  intro i s t p h hp
  obtain ⟨u, hu, hframe⟩ | ⟨c, hc, hu⟩ := exec_framed_or_fault i s
  · obtain rfl : u = t := by simpa [hu] using h
    exact hframe.parts p fun hmem => hp (mayWrite_of_mem_writtenParts i p hmem)
  · obtain rfl : raiseFault c (encodeWord i) s = t := by simpa [hu] using h
    have hne : p ≠ .faultRecord := by rintro rfl; exact hp ⟨c, hc⟩
    exact unchangedBut_raiseFault c _ s p (by simpa using hne)

/-- Settles O43: a completed instruction keeps to its register frame, and a fault writes no register. -/
theorem registersAreWrittenOnlyByTheirInstructions : Obligations.RegistersAreWrittenOnlyByTheirInstructions := by
  intro i s t r h hr
  obtain ⟨u, hu, hframe⟩ | ⟨c, -, hu⟩ := exec_framed_or_fault i s
  · obtain rfl : u = t := by simpa [hu] using h
    exact hframe.regs r hr
  · obtain rfl : raiseFault c (encodeWord i) s = t := by simpa [hu] using h
    exact raiseFault_getV c _ s r

/-- Settles O53: over the kinds of Step; no instruction is a named writer of the keys. -/
theorem noStepWritesTheKeys : Obligations.NoStepWritesTheKeys := by
  intro s t h
  obtain ⟨-, hu⟩ | ⟨-, -, -, hu⟩ | ⟨w, -, -, -, hu⟩ | ⟨w, i, -, -, -, hu⟩ := step_cases s
  · obtain rfl : s = t := by simpa [hu] using h
    rfl
  · obtain rfl : fetchFault (phases s) = t := by simpa [hu] using h
    rfl
  · obtain rfl : reportUnknown w (phases s) = t := by simpa [hu] using h
    rfl
  · exact stateIsWrittenOnlyByTheNamedInstructions i (phases s) t .keys (hu ▸ h) id

end Sys2Proof.Machine

/-! Memory and its accesses (20_memory.md): the fetched word as a number, each access primitive on its two sides of the bound, the fetch after
a store, and canonical memories as the functions they read as. -/

namespace Sys2Proof.Machine

/-- Big-endian: the first byte is the high one (R44). -/
theorem wordOfBytes_toNat (hi lo : Byte) : (wordOfBytes hi lo).toNat = hi.toNat * 256 + lo.toNat := by
  rw [wordOfBytes, BitVec.toNat_append, ← Nat.shiftLeft_add_eq_or_of_lt lo.isLt, Nat.shiftLeft_eq]

/-- Settles O31: below 0x0FFF the fetch answers the word of the two bytes. -/
theorem fetchIsBigEndianAtAnyAlignment : Obligations.FetchIsBigEndianAtAnyAlignment := by
  intro s hpc
  obtain ⟨-, h⟩ | ⟨hgt, -⟩ := fetchWord_cases s
  · exact ⟨_, h, wordOfBytes_toNat _ _⟩
  · omega

/-! The access primitives on each side of the bound (R41, R42). -/

theorem memRead_eq_some (m : Memory) {a n : Nat} (h : n = 0 ∨ a + n ≤ 4096) : memRead m a n = some (Memory.bytes m a n) :=
  if_pos ((inRange_iff a n).2 h)

theorem memWrite_eq_some (m : Memory) {a : Nat} {bs : List Byte} (h : a + bs.length ≤ 4096) :
    memWrite m a bs = some (Memory.setBytes m a bs) := if_pos ((inRange_iff a bs.length).2 (.inr h))

theorem not_inRange {a n : Nat} (hn : 1 ≤ n) (h : 0x0FFF < a + n - 1) : ¬inRange a n = true := by
  rw [inRange_iff]; omega

theorem memRead_eq_none (m : Memory) {a n : Nat} (hn : 1 ≤ n) (h : 0x0FFF < a + n - 1) : memRead m a n = none :=
  if_neg (not_inRange hn h)

theorem memWrite_eq_none (m : Memory) {a : Nat} {bs : List Byte} (hn : 1 ≤ bs.length) (h : 0x0FFF < a + bs.length - 1) :
    memWrite m a bs = none := if_neg (not_inRange hn h)

/-- A stored byte is read back at its offset (R42). -/
theorem get_setBytes_add {m : Memory} (hm : Memory.wf m = true) {a k : Nat} {bs : List Byte} (h : a + bs.length ≤ 4096)
    (hk : k < bs.length) : Memory.get (Memory.setBytes m a bs) (a + k) = bs[k] := by
  rw [get_setBytes hm h, dif_pos (by omega)]
  simp

/-- Outside the stored range every address reads as before (R42). -/
theorem get_setBytes_of_outside {m : Memory} (hm : Memory.wf m = true) {a c : Nat} {bs : List Byte} (h : a + bs.length ≤ 4096)
    (hc : c < a ∨ a + bs.length ≤ c) : Memory.get (Memory.setBytes m a bs) c = Memory.get m c := by
  rw [get_setBytes hm h, dif_neg (by omega)]

/-- Settles O22: each clause is a primitive on one side of the bound, its bytes by the laws of `Memory.bytes` and `Memory.setBytes`. -/
theorem accessPrimitivesCheckTheWholeRange : Obligations.AccessPrimitivesCheckTheWholeRange := by
  intro m a n bs hm
  refine ⟨?_, fun h => ?_, memRead_eq_none m, fun h => ?_, memWrite_eq_none m⟩
  · rintro rfl
    exact memRead_eq_some m (.inl rfl)
  · exact ⟨_, memRead_eq_some m (.inr h), length_bytes m a n, fun k hk => by simp [hk]⟩
  · exact ⟨_, memWrite_eq_some m h, wf_setBytes hm h, fun k hk => get_setBytes_add hm h hk, fun c hc => get_setBytes_of_outside hm h hc⟩

/-- StoreRegistersAtIndex in range: the registers are stored, then `pc` advances (R134). -/
theorem exec_storeRegistersAtIndex {x : Reg} {s : State} (h : dataBase s + x.val ≤ 0x0FFF) :
    exec (.storeRegistersAtIndex x) s = .next (s.setMem (Memory.setBytes s.mem (dataBase s) (regsUpTo s x))).endInstr := by
  have hw := memWrite_eq_some s.mem (a := dataBase s) (bs := regsUpTo s x) (by rw [length_regsUpTo]; omega)
  simp only [exec, execStoreRegistersAtIndex, hw]

/-- The registers stored read back one by one (R134). -/
theorem get_setBytes_regsUpTo {x k : Reg} {s : State} (hm : Memory.wf s.mem = true) (h : dataBase s + x.val ≤ 0x0FFF) (hk : k.val ≤ x.val) :
    Memory.get (Memory.setBytes s.mem (dataBase s) (regsUpTo s x)) (dataBase s + k.val) = s.getV k := by
  have hl : k.val < (regsUpTo s x).length := by rw [length_regsUpTo]; omega
  rw [get_setBytes_add hm (by rw [length_regsUpTo]; omega) hl, getElem_regsUpTo]

/-- Settles O21: the new `pc` is `dataBase s`, where the store left V0 and V1. -/
theorem nextFetchSeesTheStore : Obligations.NextFetchSeesTheStore := by
  intro x s t hm hx hI hr ht
  rw [exec_storeRegistersAtIndex hr, Host.Outcome.next.injEq] at ht
  have hmem : t.mem = Memory.setBytes s.mem (dataBase s) (regsUpTo s x) := by simp [← ht]
  have hpc : t.pc.toNat = dataBase s := by
    rw [← ht, endInstr_pc, setMem_pc]; bv_omega
  have h0 : Memory.get t.mem (dataBase s) = s.getV 0 := hmem ▸ get_setBytes_regsUpTo (k := 0) hm hr (Nat.zero_le x.val)
  have h1 : Memory.get t.mem (dataBase s + 1) = s.getV 1 := hmem ▸ get_setBytes_regsUpTo (k := 1) hm hr hx
  obtain ⟨w, hf, hw⟩ := fetchIsBigEndianAtAnyAlignment t (by omega)
  exact ⟨w, hf, by rw [hw, hpc, h0, h1]⟩

/-! A canonical memory is determined by what it reads as (log 5). -/

/-- An address that reads as something other than the reset contents is not below the bound of the canonical form. -/
theorem le_of_get_ne_background {lo a : Nat} {m : Memory} (hm : Memory.wfFrom lo m = true) (h : Memory.get m a ≠ background a) : lo ≤ a :=
  Nat.le_of_not_lt fun ha => h (get_of_lt hm ha)

/-- The first address listed does not read as the reset contents. -/
theorem get_head_ne_background {lo a : Nat} {b : Byte} {m : Memory} (hm : Memory.wfFrom lo ((a, b) :: m) = true) :
    Memory.get ((a, b) :: m) a ≠ background a := by
  obtain ⟨-, -, hb, -⟩ := (wfFrom_cons ..).1 hm
  simpa [get_cons] using hb

/-- Of two canonical memories that read the same, each first address is bounded by the other. -/
theorem head_le_of_get_eq {lo a a' : Nat} {b b' : Byte} {m m' : Memory} (hm : Memory.wfFrom lo ((a, b) :: m) = true)
    (hm' : Memory.wfFrom lo ((a', b') :: m') = true)
    (h : ∀ c, Memory.get ((a, b) :: m) c = Memory.get ((a', b') :: m') c) : a' ≤ a := by
  have hfrom : Memory.wfFrom a' ((a', b') :: m') = true := (wfFrom_cons ..).2 ⟨le_rfl, ((wfFrom_cons ..).1 hm').2⟩
  exact le_of_get_ne_background hfrom (h a ▸ get_head_ne_background hm)

/-- Behind a common first entry the rest reads the same too: up to that address as the reset contents, above it as the whole. -/
theorem get_tail_eq {a : Nat} {b b' : Byte} {m m' : Memory} (hm : Memory.wfFrom (a + 1) m = true) (hm' : Memory.wfFrom (a + 1) m' = true)
    (h : ∀ c, Memory.get ((a, b) :: m) c = Memory.get ((a, b') :: m') c) (c : Nat) : Memory.get m c = Memory.get m' c := by
  by_cases hc : c < a + 1
  · rw [get_of_lt hm hc, get_of_lt hm' hc]
  · have hne : c ≠ a := by omega
    simpa [get_cons, hne] using h c

/-- Extensionality of the canonical form, from any bound up: equal first entries, then the rest above them. -/
theorem eq_of_get_eq {lo : Nat} : ∀ {m m' : Memory}, Memory.wfFrom lo m = true → Memory.wfFrom lo m' = true →
    (∀ a, Memory.get m a = Memory.get m' a) → m = m'
  | [], [], _, _, _ => rfl
  | [], (a, b) :: m', _, hm', h => absurd (h a).symm (get_head_ne_background hm')
  | (a, b) :: m, [], hm, _, h => absurd (h a) (get_head_ne_background hm)
  | (a, b) :: m, (a', b') :: m', hm, hm', h => by
    obtain rfl : a = a' := Nat.le_antisymm (head_le_of_get_eq hm' hm fun c => (h c).symm) (head_le_of_get_eq hm hm' h)
    obtain rfl : b = b' := by simpa [get_cons] using h a
    obtain ⟨-, -, -, htail⟩ := (wfFrom_cons ..).1 hm
    obtain ⟨-, -, -, htail'⟩ := (wfFrom_cons ..).1 hm'
    rw [eq_of_get_eq htail htail' (get_tail_eq htail htail' h)]

/-- Settles O23: extensionality from address 0 up. -/
theorem canonicalMemoriesReadingAlikeAreEqual : Obligations.CanonicalMemoriesReadingAlikeAreEqual := fun _ _ => eq_of_get_eq

end Sys2Proof.Machine

/-! The decoder and the encoder undo each other (30_encoding.md): no two rows of the opcode map select the same word, but for the catch-all of
group 0, so the row an instruction belongs to is the one its word decodes by. -/

namespace Sys2Proof

/-- Settles O4: the numbers by division, the concatenations by the fields of the word put together again (R61). -/
theorem fieldsAreTheBitsOfTheWord : Obligations.FieldsAreTheBitsOfTheWord := by
  intro w
  have hXY := fieldsOf_formatXY (fieldsOf w).group (fieldsOf w).x (fieldsOf w).y (fieldsOf w).n
  have hXK := fieldsOf_formatXK (fieldsOf w).group (fieldsOf w).x (fieldsOf w).kk
  rw [formatXY_fieldsOf] at hXY
  rw [formatXK_fieldsOf] at hXK
  refine ⟨?_, ?_, ?_, ?_, ?_, ?_, congrArg Fields.nnn hXY, congrArg Fields.nnn hXK, congrArg Fields.kk hXY⟩
  case refine_1 => simp [fieldsOf, Nat.shiftRight_eq_div_pow]; omega
  all_goals simp [fieldsOf, Nat.shiftRight_eq_div_pow]

/-- Some fields may select both rows: the same group, and selectors that do not ask two values of one field (R64). -/
def Row.overlaps (r r' : Row) : Bool :=
  r.group == r'.group &&
    match r.selector, r'.selector with
    | .onN v, .onN v' => v == v'
    | .onKk v, .onKk v' => v == v'
    | _, _ => true

theorem Row.overlaps_of_selects {r r' : Row} {f : Fields} (h : r.selects f = true) (h' : r'.selects f = true) :
    r.overlaps r' = true := by
  obtain ⟨g, sel, make⟩ := r
  obtain ⟨g', sel', make'⟩ := r'
  cases sel <;> cases sel' <;> simp_all [Row.selects, Row.overlaps]

/-- Two rows overlap only as Clear or Return before the catch-all of group 0 (R65). -/
theorem opcodeTable_pairwise_overlaps :
    opcodeTable.Pairwise fun r r' => r.overlaps r' = true →
      (r'.group, r'.selector) = (0x0, .any) ∧ r.selector ∈ [.onKk 0xE0, .onKk 0xEE] := by
  decide

/-- A word decodes by any row its fields select, by the catch-all of group 0 when its `kk` is neither Clear's nor Return's (R64, R65). -/
theorem decodeWord_of_selects {r : Row} {w : Word} (hr : r ∈ opcodeTable) (hs : r.selects (fieldsOf w) = true)
    (h0 : (r.group, r.selector) = (0x0, .any) → (fieldsOf w).kk ∉ [0xE0, 0xEE]) :
    decodeWord w = .ok (r.make (fieldsOf w)) := by
  obtain ⟨before, after, htab⟩ := List.append_of_mem hr
  have hfirst : ∀ q ∈ before, q.selects (fieldsOf w) = false := by
    intro q hq
    by_contra hsel
    rw [Bool.not_eq_false] at hsel
    obtain ⟨-, -, hpair⟩ := List.pairwise_append.1 (htab ▸ opcodeTable_pairwise_overlaps)
    obtain ⟨hany, hq0⟩ := hpair q hq r List.mem_cons_self (Row.overlaps_of_selects hsel hs)
    have hkk : (fieldsOf w).kk ∈ [0xE0, 0xEE] := by
      obtain hv | hv : q.selector = .onKk 0xE0 ∨ q.selector = .onKk 0xEE := by simpa using hq0
      all_goals
        simp only [Row.selects, hv, Bool.and_eq_true, beq_iff_eq] at hsel
        simp [hsel.2]
    exact h0 hany hkk
  have hfind : opcodeTable.find? (fun r => r.selects (fieldsOf w)) = some r :=
    List.find?_eq_some_iff_append.2 ⟨hs, before, after, htab, by simpa using hfirst⟩
  simp [decodeWord, hfind]

/-- Every instruction has its row in the opcode map, and that row makes it again of the fields of its word. -/
theorem exists_row_making (i : Instr) :
    ∃ r ∈ opcodeTable, (r.group, r.selector) = rowKey i ∧ r.make (fieldsOf (encodeWord i)) = i := by
  have hfind : ∃ r, opcodeTable.find? (fun r => (r.group, r.selector) = rowKey i) = some r ∧
      r.make (fieldsOf (encodeWord i)) = i := by
    cases i <;> exact ⟨_, rfl, by simp [encodeWord]⟩
  obtain ⟨r, hr, hmake⟩ := hfind
  exact ⟨r, List.mem_of_find?_eq_some hr, by simpa using List.find?_some hr, hmake⟩

open Laws.SelectsItsRow in
/-- The word of an instruction selects the row of that instruction. -/
theorem selectsItsRow (i : Instr) : Statement i := by
  cases i
  exacts [clear _, ret _, jumpToMachineCode _, jump _, call _, skipEqualLiteral _ _, skipNotEqualLiteral _ _,
    skipEqualRegister _ _ _, registerSetLiteral _ _, registerAddAssign _ _, registerSetRegister _ _, bitwiseOr _ _,
    bitwiseAnd _ _, bitwiseXor _ _, registerSetRegisterAdd _ _, registerSetRegisterSub _ _, registerSetRegisterShr _ _,
    registerSetRegisterSubn _ _, registerSetRegisterShl _ _, skipNotEqualRegister _ _ _, setIndex _, jumpTo _,
    randBitwiseAnd _ _, drawSprite _ _ _, skipNextKeyPressed _, skipNextKeyNotPressed _, setDelayTimerValue _,
    keyPressWait _, setDelayTimerRegister _, setSoundTimerRegister _, indexAddAssignRegister _, setIndexToDigitSprite _,
    storeBCDAtIndex _, storeRegistersAtIndex _, readRegistersAtIndex _]

/-- Well-formed is: if of the catch-all row of group 0, then with a `kk` that is neither Clear's nor Return's (R65). -/
theorem wellFormed_iff (i : Instr) :
    WellFormed i = true ↔ (rowKey i = (0x0, .any) → (fieldsOf (encodeWord i)).kk ∉ [0xE0, 0xEE]) := by
  cases i <;> simp [WellFormed, rowKey, encodeWord]

/-- The word of a well-formed instruction decodes to it, by its own row. -/
theorem decodeWord_encodeWord {i : Instr} (h : WellFormed i = true) : decodeWord (encodeWord i) = .ok i := by
  obtain ⟨r, hr, hkey, hmake⟩ := exists_row_making i
  have hs : r.selects (fieldsOf (encodeWord i)) = true := by
    have hi := selectsItsRow i
    rwa [Laws.SelectsItsRow.Statement, ← hkey] at hi
  rw [decodeWord_of_selects hr hs (hkey ▸ (wellFormed_iff i).1 h), hmake]

/-- Settles O1: through the bytes, as the word is its two bytes put together (R44, R60). -/
theorem decodeOfEncodeIsIdentity : Obligations.DecodeOfEncodeIsIdentity := by
  intro i hi
  have hd := decodeWord_encodeWord hi
  exact ⟨hd, fun rest => by simp [encode, decode, hd, Except.map]⟩

/-- The word of any term of `Instr` is that of a well-formed one: Clear's or Return's where the term itself is ill-formed (R65). -/
theorem exists_wellFormed_encodeWord_eq (i : Instr) : ∃ j, WellFormed j = true ∧ encodeWord j = encodeWord i := by
  by_cases hi : WellFormed i = true
  · exact ⟨i, hi, rfl⟩
  rw [wellFormed_iff] at hi
  push Not at hi
  obtain ⟨hkey, hkk⟩ := hi
  have hg : (fieldsOf (encodeWord i)).group = 0x0 := by
    simpa [Laws.SelectsItsRow.Statement, keyMatches, Row.selects, hkey] using selectsItsRow i
  have hw := formatXK_fieldsOf (encodeWord i)
  rw [hg] at hw
  obtain hE0 | hEE : (fieldsOf (encodeWord i)).kk = 0xE0 ∨ (fieldsOf (encodeWord i)).kk = 0xEE := by simpa using hkk
  · exact ⟨.clear (fieldsOf (encodeWord i)).x, rfl, by rwa [hE0] at hw⟩
  · exact ⟨.ret (fieldsOf (encodeWord i)).x, rfl, by rwa [hEE] at hw⟩

/-- Settles O2: a word that decodes to `i` is the word of `i`, and so of a well-formed `j`, to which it decodes too. -/
theorem encodeOfDecodeIsIdentity : Obligations.EncodeOfDecodeIsIdentity := by
  intro w i h
  have hw := encodeWord_of_decodeWord h
  obtain ⟨j, hj, hij⟩ := exists_wellFormed_encodeWord_eq i
  have hd := decodeWord_encodeWord hj
  rw [hij, hw, h] at hd
  cases hd
  exact ⟨hj, hw⟩

/-! Unknown opcodes (R70): the words no row selects, group by group. -/

theorem decodeWord_eq_unknownOpcode_iff (w : Word) :
    decodeWord w = .error (.unknownOpcode (fieldsOf w)) ↔ ∀ r ∈ opcodeTable, r.selects (fieldsOf w) = false := by
  obtain ⟨r, hr, hs, hd⟩ | ⟨hnone, hd⟩ := decodeWord_cases w
  · simp only [hd, reduceCtorEq, false_iff]
    exact fun h => by simp [h r hr] at hs
  · exact iff_of_true hd hnone

/-- Group 0 has no unknown opcode (R65). -/
theorem rowsGroup0_selects_eq_false_iff (f : Fields) : (∀ r ∈ rowsGroup0, r.selects f = false) ↔ f.group ≠ 0x0 := by
  simp only [rowsGroup0, Row.selects, List.forall_mem_cons]
  grind

theorem rowsGroups1to7_selects_eq_false_iff (f : Fields) :
    (∀ r ∈ rowsGroups1to7, r.selects f = false) ↔ f.group ∉ [0x1, 0x2, 0x3, 0x4, 0x5, 0x6, 0x7] := by
  simp [rowsGroups1to7, Row.selects]

theorem rowsGroup8_selects_eq_false_iff (f : Fields) :
    (∀ r ∈ rowsGroup8, r.selects f = false) ↔ (f.group = 0x8 → f.n ∈ [0x8, 0x9, 0xA, 0xB, 0xC, 0xD, 0xF]) := by
  have hn : ∀ n : Nibble, n ∈ [0x8, 0x9, 0xA, 0xB, 0xC, 0xD, 0xF] ↔ n ∉ [0x0, 0x1, 0x2, 0x3, 0x4, 0x5, 0x6, 0x7, 0xE] := by decide
  rw [hn]
  simp [rowsGroup8, Row.selects, imp_and]

theorem rowsGroups9toD_selects_eq_false_iff (f : Fields) :
    (∀ r ∈ rowsGroups9toD, r.selects f = false) ↔ f.group ∉ [0x9, 0xA, 0xB, 0xC, 0xD] := by
  simp [rowsGroups9toD, Row.selects]

theorem rowsGroupE_selects_eq_false_iff (f : Fields) :
    (∀ r ∈ rowsGroupE, r.selects f = false) ↔ (f.group = 0xE → f.kk ∉ [0x9E, 0xA1]) := by
  simp [rowsGroupE, Row.selects, imp_and]

theorem rowsGroupF_selects_eq_false_iff (f : Fields) :
    (∀ r ∈ rowsGroupF, r.selects f = false) ↔
      (f.group = 0xF → f.kk ∉ [0x07, 0x0A, 0x15, 0x18, 0x1E, 0x29, 0x33, 0x55, 0x65]) := by
  simp [rowsGroupF, Row.selects, imp_and]

/-- The groups with an unknown opcode are those the other groups leave over (R64). -/
theorem group_eq_8_or_E_or_F : ∀ g : Nibble, g ≠ 0x0 → g ∉ [0x1, 0x2, 0x3, 0x4, 0x5, 0x6, 0x7] →
    g ∉ [0x9, 0xA, 0xB, 0xC, 0xD] → g = 0x8 ∨ g = 0xE ∨ g = 0xF := by decide

/-- Settles O3: no row selects the word, which leaves groups 8, E and F, and there the sub-discriminants of no row. -/
theorem unknownOpcodesAreExactlyTheListed : Obligations.UnknownOpcodesAreExactlyTheListed := by
  intro w
  refine ⟨?_, fun hne => ?_⟩
  · simp only [decodeWord_eq_unknownOpcode_iff, opcodeTable, List.forall_mem_append, rowsGroup0_selects_eq_false_iff,
      rowsGroups1to7_selects_eq_false_iff, rowsGroup8_selects_eq_false_iff, rowsGroups9toD_selects_eq_false_iff,
      rowsGroupE_selects_eq_false_iff, rowsGroupF_selects_eq_false_iff]
    constructor
    · rintro ⟨⟨⟨⟨⟨h0, h1⟩, h8⟩, h9⟩, hE⟩, hF⟩
      obtain hg | hg | hg := group_eq_8_or_E_or_F _ h0 h1 h9
      · exact .inl ⟨hg, h8 hg⟩
      · exact .inr (.inl ⟨hg, hE hg⟩)
      · exact .inr (.inr ⟨hg, hF hg⟩)
    · rintro (⟨hg, h⟩ | ⟨hg, h⟩ | ⟨hg, h⟩) <;> simpa [hg] using h
  · obtain ⟨r, -, -, hd⟩ | ⟨-, hd⟩ := decodeWord_cases w
    · exact ⟨_, hd⟩
    · exact absurd hd hne

end Sys2Proof

/-! The Step's sequence (40_step_sequence.md): the equation of each kind of Step, what a Step leaves as its first phases left it, the two counters
no Step depends on, and `pc` by the class of the instruction. -/

namespace Sys2Proof.Machine

open Sys2Proof.Claims

/-! The equations of a Step, one for each way it can go (R80). -/

/-- The guard stops a Step on a latched fault or a `pc` above the last address (R81). -/
theorem guardStops_eq_true (s : State) : guardStops s = true ↔ s.fault.cause ≠ .noFault ∨ 0x0FFF < s.pc.toNat := by
  simp [guardStops, State.faulted, State.halted]

theorem step_of_guardStops {s : State} (hg : guardStops s = true) : step s = .next s := by
  simp [step, hg]

theorem step_of_fetchWord_eq_none {s : State} (hg : guardStops s = false) (hf : fetchWord s = none) :
    step s = .next (fetchFault (phases s)) := by
  simp [step, hg, hf]

theorem step_of_decodeWord_eq_error {s : State} {w : Word} {e : DecodeError} (hg : guardStops s = false)
    (hf : fetchWord s = some w) (hd : decodeWord w = .error e) : step s = .next (reportUnknown w (phases s)) := by
  simp [step, hg, hf, hd]

theorem step_of_decodeWord_eq_ok {s : State} {w : Word} {i : Instr} (hg : guardStops s = false)
    (hf : fetchWord s = some w) (hd : decodeWord w = .ok i) : step s = exec i (phases s) := by
  simp [step, hg, hf, hd]

/-- Settles O30: each clause is one of the equations of a Step, at the fetch its `pc` gives. -/
theorem stepRunsTheDecodedInstruction : Obligations.StepRunsTheDecodedInstruction := by
  intro s p hp
  obtain rfl : p = phases s := hp
  refine ⟨fun h => step_of_guardStops ((guardStops_eq_true s).2 h), fun hc hpc => ?_, fun hc hpc w hw => ?_⟩
  · have hg : guardStops s = false := (guardStops_eq_false s).2 ⟨hc, by simp [hpc]⟩
    obtain ⟨hle, -⟩ | ⟨-, hf⟩ := fetchWord_cases s
    · simp [hpc] at hle
    · rw [step_of_fetchWord_eq_none hg hf, fetchFault, raiseFault, phases_pc, hpc]
  · have hg : guardStops s = false := (guardStops_eq_false s).2 ⟨hc, by omega⟩
    obtain ⟨-, hf⟩ | ⟨hgt, -⟩ := fetchWord_cases s
    · have hf : fetchWord s = some w := hw ▸ hf
      exact ⟨fun e he => step_of_decodeWord_eq_error hg hf he, fun i hi => step_of_decodeWord_eq_ok hg hf hi⟩
    · omega

/-! A stopped machine under the host's actions (R81). -/

/-- Changes that leave the same parts alone, one after the other. -/
theorem UnchangedBut.trans_self {ps : List Part} {s t u : State} (h : UnchangedBut ps s t) (h' : UnchangedBut ps t u) :
    UnchangedBut ps s u :=
  fun p hp => Part.same_trans (h p hp) (h' p hp)

theorem UnchangedBut.mono {ps qs : List Part} {s t : State} (hsub : ps ⊆ qs) (h : UnchangedBut ps s t) : UnchangedBut qs s t :=
  fun p hp => h p fun hmem => hp (hsub hmem)

/-- The guard sees only `pc` and the fault record. -/
theorem guardStops_congr {s t : State} (hp : t.pc = s.pc) (hf : t.fault = s.fault) : guardStops t = guardStops s := by
  simp only [guardStops, State.faulted, State.halted, hp, hf]

theorem noReset_cons {a : HostAction} {as : List HostAction} :
    NoReset (a :: as) ↔ (∀ image, a ≠ .reset image) ∧ NoReset as := by
  simp [NoReset, forall_and, eq_comm]

/-- On a stopped machine an action of the host that is no reset writes at most the keys and the redraw flag (R2, R81). -/
theorem hostAct_of_guardStops {s : State} {a : HostAction} (hg : guardStops s = true) (ha : ∀ image, a ≠ .reset image) :
    ∃ t, hostAct a s = .next t ∧ UnchangedBut [.keys, .redraw] s t := by
  cases a with
  | reset image => exact absurd rfl (ha image)
  | step => exact ⟨s, step_of_guardStops hg, .refl _ s⟩
  | keys k => exact ⟨hostKeys k s, rfl, (hostKeys_unchanged k s).mono (by simp)⟩
  | ack => exact ⟨hostAck s, rfl, (hostAck_unchanged s).mono (by simp)⟩
  | readFb => exact ⟨s, rfl, .refl _ s⟩

/-- A machine stays stopped through any such actions: none writes `pc` or the fault record, which the guard tests (R81). -/
theorem hostRun_of_guardStops {s : State} {as : List HostAction} (hg : guardStops s = true) (has : NoReset as) :
    ∃ t, hostRun as s = .next t ∧ UnchangedBut [.keys, .redraw] s t := by
  induction as generalizing s with
  | nil => exact ⟨s, rfl, .refl _ s⟩
  | cons a as ih =>
    obtain ⟨ha, has⟩ := noReset_cons.1 has
    obtain ⟨t, ht, hst⟩ := hostAct_of_guardStops hg ha
    have hgt : guardStops t = true := (guardStops_congr (hst .pc (by simp)) (hst .faultRecord (by simp))).trans hg
    obtain ⟨u, hu, htu⟩ := ih hgt has
    exact ⟨u, by rw [hostRun, ht]; exact hu, hst.trans_self htu⟩

/-- Settles O33: the guard stops the Step, and by induction on the actions it goes on stopping it. -/
theorem haltAndFaultAreNoOpsUntilReset : Obligations.HaltAndFaultAreNoOpsUntilReset := by
  intro s h
  have hg : guardStops s = true := (guardStops_eq_true s).2 h
  refine ⟨step_of_guardStops hg, fun as has => ?_⟩
  obtain ⟨t, ht, hst⟩ := hostRun_of_guardStops hg has
  exact ⟨t, ht, hst .pc (by simp), hst .faultRecord (by simp), hst⟩

/-! What a Step leaves as its first phases left it (R83, R88). -/

/-- The instruction a Step executes is the one the fetched word decodes to (R84, R85). -/
theorem fetchedInstr_eq_some_iff {s : State} {i : Instr} :
    fetchedInstr s = some i ↔ ∃ w, fetchWord s = some w ∧ decodeWord w = .ok i := by
  cases hf : fetchWord s with
  | none => simp [fetchedInstr, hf]
  | some w => cases hd : decodeWord w <;> simp [fetchedInstr, hf, hd]

/-- A Step that passes the guard executes the instruction it fetches, at the state the first phases leave (R86). -/
theorem step_of_fetchedInstr {s : State} {i : Instr} (hg : guardStops s = false) (hi : fetchedInstr s = some i) :
    step s = exec i (phases s) := by
  obtain ⟨w, hf, hd⟩ := fetchedInstr_eq_some_iff.1 hi
  exact step_of_decodeWord_eq_ok hg hf hd

/-- All that a Step that passes the guard can do, by the instruction it fetches: with none, the fault of the fetch or the report (R84 to R86). -/
theorem step_cases_fetchedInstr {s : State} (hg : guardStops s = false) :
    (fetchedInstr s = none ∧ (step s = .next (fetchFault (phases s)) ∨ ∃ w, step s = .next (reportUnknown w (phases s)))) ∨
      ∃ i, fetchedInstr s = some i ∧ step s = exec i (phases s) := by
  obtain ⟨hg', -⟩ | ⟨-, -, hf, hu⟩ | ⟨w, -, hf, hd, hu⟩ | ⟨w, i, -, hf, hd, hu⟩ := step_cases s
  · simp [hg] at hg'
  · exact .inl ⟨by simp [fetchedInstr, hf], .inl hu⟩
  · exact .inl ⟨by simp [fetchedInstr, hf, hd], .inr ⟨w, hu⟩⟩
  · exact .inr ⟨i, fetchedInstr_eq_some_iff.2 ⟨w, hf, hd⟩, hu⟩

theorem unchangedBut_reportUnknown (w : Word) (s : State) : UnchangedBut [.events] s (reportUnknown w s) :=
  fun p hp => by cases p <;> simp_all [Part.same]

/-- A part other than the fault record and the events is as the first phases leave it, unless the executed instruction is a named writer of it. -/
theorem same_phases_of_step {s t : State} {p : Part} (hg : guardStops s = false) (h : step s = .next t)
    (hp : p ∉ [.faultRecord, .events]) (hw : ∀ i, fetchedInstr s = some i → ¬mayWrite p i) : p.same (phases s) t := by
  rw [List.mem_pair, not_or] at hp
  obtain ⟨-, hu | ⟨w, hu⟩⟩ | ⟨i, hi, hu⟩ := step_cases_fetchedInstr hg
  · obtain rfl : fetchFault (phases s) = t := by simpa [hu] using h
    exact unchangedBut_raiseFault _ _ _ p (by simpa using hp.1)
  · obtain rfl : reportUnknown w (phases s) = t := by simpa [hu] using h
    exact unchangedBut_reportUnknown _ _ p (by simpa using hp.2)
  · exact stateIsWrittenOnlyByTheNamedInstructions i (phases s) t p (hu ▸ h) (hw i hi)

/-- A Step emits nothing after its first phases but the report of an unknown opcode (R85). -/
theorem events_of_step {s t : State} (hg : guardStops s = false) (h : step s = .next t) :
    t.events = (phases s).events ∨ ∃ w pc, t.events = .unknownOpcode w pc :: (phases s).events := by
  obtain ⟨-, hu | ⟨w, hu⟩⟩ | ⟨i, -, hu⟩ := step_cases_fetchedInstr hg
  · obtain rfl : fetchFault (phases s) = t := by simpa [hu] using h
    exact .inl rfl
  · obtain rfl : reportUnknown w (phases s) = t := by simpa [hu] using h
    exact .inr ⟨w, _, rfl⟩
  · exact .inl (stateIsWrittenOnlyByTheNamedInstructions i (phases s) t .events (hu ▸ h) id)

/-- Settles O35: the three timer instructions executed after the countdown, and the frame of a Step for all the others. -/
theorem timersLoseOnePerStepBeforeTheInstruction : Obligations.TimersLoseOnePerStepBeforeTheInstruction := by
  intro s t hg h
  refine ⟨fun x hx => ?_, fun x hx => ?_, fun x hx => ?_, fun hx => ?_, fun hx => ?_, fun hst => ?_, fun hst => ?_⟩
  · obtain rfl : ((phases s).setV x (countDown s.dt)).endInstr = t :=
      Host.Outcome.next.inj ((step_of_fetchedInstr hg hx).symm.trans h)
    rw [endInstr_getV, setV_getV, if_pos rfl, countDown_toNat]
  · obtain rfl : ((phases s).setDt (s.getV x)).endInstr = t :=
      Host.Outcome.next.inj ((step_of_fetchedInstr hg hx).symm.trans h)
    rfl
  · obtain rfl : ((phases s).setSt (s.getV x)).endInstr = t :=
      Host.Outcome.next.inj ((step_of_fetchedInstr hg hx).symm.trans h)
    rfl
  · have hdt : t.dt = countDown s.dt :=
      same_phases_of_step (p := .delayTimer) hg h (by simp) fun i hi ⟨x, hw⟩ => hx x (hw ▸ hi)
    rw [hdt, countDown_toNat]
  · have hst : t.st = countDown s.st :=
      same_phases_of_step (p := .soundTimer) hg h (by simp) fun i hi ⟨x, hw⟩ => hx x (hw ▸ hi)
    rw [hst, countDown_toNat]
  · have he := events_of_step hg h
    rwa [phases_events, if_pos hst] at he
  · have he := events_of_step hg h
    rwa [phases_events, if_neg hst] at he

/-- Settles O40: no fault is latched before the Step and none by the report, so it is the fetch's, or the executed instruction's with its own word. -/
theorem faultingStepLatchesPcAndWord : Obligations.FaultingStepLatchesPcAndWord := by
  intro s t hg h hc
  have hclear : s.fault.cause = .noFault := ((guardStops_eq_false s).1 hg).1
  have hfaulted : t.faulted = true := by simpa [State.faulted] using hc
  obtain ⟨hg', -⟩ | ⟨-, hpc, hf, hu⟩ | ⟨w, -, -, -, hu⟩ | ⟨w, i, -, hf, hd, hu⟩ := step_cases s
  · simp [hg] at hg'
  · obtain rfl : fetchFault (phases s) = t := by simpa [hu] using h
    exact ⟨rfl, hfaulted, rfl, by simp [hf], iff_of_true rfl hpc⟩
  · obtain rfl : reportUnknown w (phases s) = t := by simpa [hu] using h
    exact absurd hclear hc
  · obtain ⟨u, hu', hcomp⟩ | ⟨c, hi, hu'⟩ := exec_cases i (phases s)
    · obtain rfl : u = t := by simpa [hu, hu'] using h
      exact absurd (hcomp.fault ▸ hclear) hc
    · obtain rfl : raiseFault c (encodeWord i) (phases s) = t := by simpa [hu, hu'] using h
      have hne : c ≠ .fetchBounds := by rintro rfl; exact hi
      have hpc : s.pc ≠ 0x0FFF := by
        obtain ⟨hle, -⟩ | ⟨-, hn⟩ := fetchWord_cases s
        · rintro hpc; simp [hpc] at hle
        · simp [hf] at hn
      exact ⟨rfl, hfaulted, rfl, by simp [hf, encodeWord_of_decodeWord hd], iff_of_false hne hpc⟩

/-! The two counters no Step depends on: the tick, and for every instruction but RandBitwiseAnd the number of the next draw (R82, R89). -/

/-- The state with its tick and its draw number put through `g` and `d`. -/
def State.mapCounters (g : BitVec 64 → BitVec 64) (d : Nat → Nat) (s : State) : State :=
  { s with tick := g s.tick, rndIndex := d s.rndIndex }

section
variable (g : BitVec 64 → BitVec 64) (d : Nat → Nat) (s : State)

@[simp] theorem mapCounters_mem : (s.mapCounters g d).mem = s.mem := rfl
@[simp] theorem mapCounters_getV (r : Reg) : (s.mapCounters g d).getV r = s.getV r := rfl
@[simp] theorem mapCounters_dataBase : dataBase (s.mapCounters g d) = dataBase s := rfl
@[simp] theorem mapCounters_keyIndex (r : Reg) : keyIndex (s.mapCounters g d) r = keyIndex s r := rfl
@[simp] theorem mapCounters_firstKeyDown : firstKeyDown (s.mapCounters g d) = firstKeyDown s := rfl
@[simp] theorem mapCounters_regsUpTo (x : Reg) : regsUpTo (s.mapCounters g d) x = regsUpTo s x := rfl

end

/-- The execute phase carries the two counters through: the draw number is read by RandBitwiseAnd alone, the tick by nothing (R82, R89). -/
theorem exec_mapCounters (g : BitVec 64 → BitVec 64) {d : Nat → Nat} (i : Instr) (s : State)
    (hd : d = id ∨ ∀ x kk, i ≠ .randBitwiseAnd x kk) :
    ∃ t, exec i s = .next t ∧ exec i (s.mapCounters g d) = .next (t.mapCounters g d) := by
  cases i with
  | clear | jumpToMachineCode | registerSetLiteral | registerAddAssign | registerSetRegister | bitwiseOr | bitwiseAnd | bitwiseXor
  | registerSetRegisterAdd | registerSetRegisterSub | registerSetRegisterShr | registerSetRegisterSubn | registerSetRegisterShl
  | setIndex | setDelayTimerValue | setDelayTimerRegister | setSoundTimerRegister | indexAddAssignRegister | setIndexToDigitSprite
  | skipEqualLiteral | skipNotEqualLiteral | skipEqualRegister | skipNotEqualRegister | jump | jumpTo => exact ⟨_, rfl, rfl⟩
  | randBitwiseAnd x kk =>
    obtain rfl | hd := hd
    · exact ⟨_, rfl, rfl⟩
    · exact absurd rfl (hd x kk)
  | ret x =>
    rw [exec_ret_eq, exec_ret_eq]
    by_cases h : 0 < s.sp.val
    · exact ⟨_, dif_pos h, dif_pos h⟩
    · exact ⟨_, dif_neg h, dif_neg h⟩
  | call nnn =>
    rw [exec_call_eq, exec_call_eq]
    by_cases h : s.sp.val < 16
    · by_cases hr : returnAddressFits s
      · exact ⟨_, (dif_pos h).trans (if_pos hr), (dif_pos h).trans (if_pos hr)⟩
      · exact ⟨_, (dif_pos h).trans (if_neg hr), (dif_pos h).trans (if_neg hr)⟩
    · exact ⟨_, dif_neg h, dif_neg h⟩
  | drawSprite x y n =>
    simp only [exec, execDrawSprite, mapCounters_mem, mapCounters_dataBase]
    cases memRead s.mem (dataBase s) n.toNat <;> exact ⟨_, rfl, rfl⟩
  | readRegistersAtIndex x =>
    simp only [exec, execReadRegistersAtIndex, mapCounters_mem, mapCounters_dataBase]
    cases memRead s.mem (dataBase s) (x.val + 1) <;> exact ⟨_, rfl, rfl⟩
  | storeBCDAtIndex x =>
    simp only [exec, execStoreBCDAtIndex, mapCounters_mem, mapCounters_dataBase, mapCounters_getV]
    cases memWrite s.mem (dataBase s) (bcdDigits (s.getV x)) <;> exact ⟨_, rfl, rfl⟩
  | storeRegistersAtIndex x =>
    simp only [exec, execStoreRegistersAtIndex, mapCounters_mem, mapCounters_dataBase, mapCounters_regsUpTo]
    cases memWrite s.mem (dataBase s) (regsUpTo s x) <;> exact ⟨_, rfl, rfl⟩
  | skipNextKeyPressed x =>
    simp only [exec, execSkipNextKeyPressed, mapCounters_keyIndex]
    cases keyIndex s x <;> exact ⟨_, rfl, rfl⟩
  | skipNextKeyNotPressed x =>
    simp only [exec, execSkipNextKeyNotPressed, mapCounters_keyIndex]
    cases keyIndex s x <;> exact ⟨_, rfl, rfl⟩
  | keyPressWait x =>
    simp only [exec, execKeyPressWait, mapCounters_firstKeyDown]
    cases firstKeyDown s <;> exact ⟨_, rfl, rfl⟩

/-- A Step that passes the guard carries the two counters through, from the state its first phases leave (R80). -/
theorem step_mapCounters {g : BitVec 64 → BitVec 64} {d : Nat → Nat} {s s' : State}
    (hs : phases s' = (phases s).mapCounters g d) (hg : guardStops s = false)
    (hd : d = id ∨ ∀ x kk, fetchedInstr s ≠ some (.randBitwiseAnd x kk)) :
    ∃ t, step s = .next t ∧ step s' = .next (t.mapCounters g d) := by
  have hg' : guardStops s' = false :=
    (guardStops_congr (congrArg State.pc hs) (congrArg State.fault hs)).trans hg
  have hfetch : fetchWord s' = fetchWord s := by rw [← fetchWord_phases, hs]; rfl
  obtain ⟨hstop, -⟩ | ⟨-, -, hf, hu⟩ | ⟨w, -, hf, hdec, hu⟩ | ⟨w, i, -, hf, hdec, hu⟩ := step_cases s
  · simp [hg] at hstop
  · exact ⟨_, hu, by rw [step_of_fetchWord_eq_none hg' (hfetch.trans hf), hs]; rfl⟩
  · exact ⟨_, hu, by rw [step_of_decodeWord_eq_error hg' (hfetch.trans hf) hdec, hs]; rfl⟩
  · have hi : fetchedInstr s = some i := fetchedInstr_eq_some_iff.2 ⟨w, hf, hdec⟩
    rw [hu, step_of_decodeWord_eq_ok hg' (hfetch.trans hf) hdec, hs]
    exact exec_mapCounters g i (phases s) (hd.imp_right fun hne x kk h => hne x kk (h ▸ hi))

/-- Settles O34: the first phases add the 1, no instruction writes the tick, and a Step carries another tick through. -/
theorem tickCountsStepsAndIsReadByNothing : Obligations.TickCountsStepsAndIsReadByNothing := by
  intro s k
  refine ⟨step_of_guardStops, fun hg => ?_⟩
  obtain ⟨t, ht, ht'⟩ := step_mapCounters (s' := { s with tick := k }) (g := fun _ => k + 1) (d := id) rfl hg (.inl rfl)
  exact ⟨t, ht, same_phases_of_step (p := .tick) hg ht (by simp) fun _ _ => id, ht'⟩

/-- Settles O46: no instruction but RandBitwiseAnd writes the draw number, and a Step without it carries another number through. -/
theorem randomSourceIsConsultedByOneInstruction : Obligations.RandomSourceIsConsultedByOneInstruction := by
  intro s k hne
  cases hg : guardStops s with
  | true => exact ⟨s, step_of_guardStops hg, rfl, step_of_guardStops (s := { s with rndIndex := k }) hg⟩
  | false =>
    obtain ⟨t, ht, ht'⟩ := step_mapCounters (s' := { s with rndIndex := k }) (g := id) (d := fun _ => k) rfl hg (.inr hne)
    have hdraws : t.rndIndex = s.rndIndex :=
      same_phases_of_step (p := .draws) hg ht (by simp) fun i hi ⟨x, kk, hw⟩ => hne x kk (hw ▸ hi)
    exact ⟨t, ht, hdraws, ht'⟩

/-! The program counter by the class of the instruction (R86). -/

theorem holds_skipInstr {P : Prop} {c : Bool} (s : State) (h : c = true ↔ P) : (PcClass.skipInstr P).holds s (s.skipInstr c) := by
  refine ⟨fun hp => ?_, fun hp => ?_⟩
  · simp [h.2 hp]
  · simp [Bool.eq_false_iff.2 (mt h.1 hp)]

theorem keys_eq_zero_iff (s : State) : s.keys = 0 ↔ ∀ k, s.keyDown k = false := by
  refine ⟨fun h k => by simp [State.keyDown, h], fun h => BitVec.eq_of_getLsbD_eq fun k hk => ?_⟩
  simpa [State.keyDown] using h ⟨k, hk⟩

/-- Where no fault is due an instruction completes with `pc` as its class says. -/
theorem exec_pcClass {i : Instr} {s : State} (hc : causeDue i s = .noFault) :
    ∃ t, exec i s = .next t ∧ (pcClass i s).holds s t := by
  cases i with
  | clear | jumpToMachineCode | registerSetLiteral | registerAddAssign | registerSetRegister | bitwiseOr | bitwiseAnd | bitwiseXor
  | registerSetRegisterAdd | registerSetRegisterSub | registerSetRegisterShr | registerSetRegisterSubn | registerSetRegisterShl
  | setIndex | randBitwiseAnd | setDelayTimerValue | setDelayTimerRegister | setSoundTimerRegister | indexAddAssignRegister
  | setIndexToDigitSprite => exact ⟨_, rfl, rfl⟩
  | skipEqualLiteral | skipEqualRegister => exact ⟨_, rfl, holds_skipInstr s beq_iff_eq⟩
  | skipNotEqualLiteral | skipNotEqualRegister => exact ⟨_, rfl, holds_skipInstr s bne_iff_ne⟩
  | skipNextKeyPressed x =>
    obtain ⟨hgt, -⟩ | ⟨_, h⟩ := keyIndex_cases s x
    · simp [causeDue, hgt] at hc
    · simp only [exec, execSkipNextKeyPressed, h]
      exact ⟨_, rfl, holds_skipInstr s .rfl⟩
  | skipNextKeyNotPressed x =>
    obtain ⟨hgt, -⟩ | ⟨_, h⟩ := keyIndex_cases s x
    · simp [causeDue, hgt] at hc
    · simp only [exec, execSkipNextKeyNotPressed, h]
      exact ⟨_, rfl, holds_skipInstr s (.of_eq (Bool.not_eq_true' _))⟩
  | jump nnn => exact ⟨_, rfl, addrOf_toNat nnn⟩
  | jumpTo nnn =>
    refine ⟨_, rfl, ?_⟩
    simp only [pcClass, PcClass.holds, setPc_pc, BitVec.toNat_add, regAsWord_toNat, addrOf_toNat]
    omega
  | ret x =>
    have hsp : 0 < s.sp.val := by simp only [causeDue] at hc; split_ifs at hc; omega
    exact ⟨_, (exec_ret_eq x s).trans (dif_pos hsp), addrOf_toNat _⟩
  | call nnn =>
    simp only [causeDue] at hc
    split_ifs at hc with hfull hlast
    have hsp : s.sp.val < 16 := by omega
    have hr : returnAddressFits s = true := decide_eq_true (by omega)
    exact ⟨_, (exec_call_eq nnn s).trans ((dif_pos hsp).trans (if_pos hr)), addrOf_toNat nnn⟩
  | keyPressWait x =>
    obtain ⟨hk, h⟩ | ⟨k, hk, -, h⟩ := firstKeyDown_cases s <;> simp only [exec, execKeyPressWait, h]
    · exact ⟨_, rfl, fun hne => absurd ((keys_eq_zero_iff s).2 hk) hne, fun _ => rfl⟩
    · exact ⟨_, rfl, fun _ => rfl, fun h0 => by simp [(keys_eq_zero_iff s).1 h0 k] at hk⟩
  | drawSprite x y n =>
    have hr : n.toNat = 0 ∨ dataBase s + n.toNat ≤ 4096 := by simp only [causeDue, dataBase] at hc ⊢; split_ifs at hc; omega
    simp only [exec, execDrawSprite, memRead_eq_some s.mem hr]
    exact ⟨_, rfl, rfl⟩
  | readRegistersAtIndex x =>
    have hr : x.val + 1 = 0 ∨ dataBase s + (x.val + 1) ≤ 4096 := by simp only [causeDue, dataBase] at hc ⊢; split_ifs at hc; omega
    simp only [exec, execReadRegistersAtIndex, memRead_eq_some s.mem hr]
    exact ⟨_, rfl, rfl⟩
  | storeBCDAtIndex x =>
    have hr : dataBase s + (bcdDigits (s.getV x)).length ≤ 4096 := by
      simp only [causeDue, dataBase, length_bcdDigits] at hc ⊢; split_ifs at hc; omega
    simp only [exec, execStoreBCDAtIndex, memWrite_eq_some s.mem hr]
    exact ⟨_, rfl, rfl⟩
  | storeRegistersAtIndex x =>
    have hr : dataBase s + x.val ≤ 0x0FFF := by simp only [causeDue, dataBase] at hc ⊢; split_ifs at hc; omega
    exact ⟨_, exec_storeRegistersAtIndex hr, rfl⟩

/-- Settles O44: the execute phase has one outcome, and by its instruction's class it is the one named. -/
theorem pcMovesByClass : Obligations.PcMovesByClass := by
  intro i s t hc h
  obtain ⟨u, hu, hclass⟩ := exec_pcClass hc
  obtain rfl : u = t := by simpa [hu] using h
  exact hclass

end Sys2Proof.Machine

/-! Control flow (41_control_flow.md): the jumps, Return and Call. -/

namespace Sys2Proof.Machine

open Sys2Proof.Claims

/-! How an instruction's word, its fault and its transfer are claimed, said once for every instruction. -/

theorem hasWord_of_encodeWord {w : Word} {i : Instr} (hw : encodeWord i = w) (hi : WellFormed i = true) : HasWord w i :=
  ⟨hw ▸ decodeWord_encodeWord hi, hw⟩

theorem faults_of_exec {i : Instr} {s : State} {c : FaultCause} (h : exec i s = .next (raiseFault c (encodeWord i) s)) : Faults i s c :=
  ⟨_, h, rfl, unchangedBut_raiseFault c _ s⟩

theorem setsPc_of_exec {i : Instr} {s : State} {a : Word} (h : exec i s = .next (s.setPc a)) : SetsPc i s a :=
  ⟨_, h, rfl, unchangedBut_setPc s a⟩

/-- A push or a pop followed by a transfer writes the stack and `pc` and nothing else (R91, R93). -/
theorem unchangedBut_stack_pc (s : State) (stk : Vector Addr12 16) (sp : Fin 17) (a : Word) :
    UnchangedBut [.pc, .stack] s { s with stk := stk, sp := sp, pc := a } :=
  ((unchangedBut_stack s stk sp).trans (unchangedBut_setPc _ a)).mono (by simp)

/-! Call and the Return that undoes it (R91, R93). -/

theorem returnAddressFits_iff (s : State) : returnAddressFits s = true ↔ s.pc.toNat + 2 ≤ 0x0FFF := decide_eq_true_iff

/-- A return address that fits is stacked whole (R93). -/
theorem returnAddress_toNat {s : State} (h : s.pc.toNat + 2 ≤ 0x0FFF) : (returnAddress s).toNat = s.pc.toNat + 2 := by
  simp only [returnAddress]; bv_omega

theorem addrOf_returnAddress {s : State} (h : s.pc.toNat + 2 ≤ 0x0FFF) : addrOf (returnAddress s) = s.pc + 2 := by
  apply BitVec.eq_of_toNat_eq
  rw [addrOf_toNat, returnAddress_toNat h]
  bv_omega

/-- The state a Call that completes leaves (R93). -/
def callState (nnn : Addr12) (s : State) (h : s.sp.val < 16) : State :=
  { s with stk := s.stk.set s.sp.val (returnAddress s), sp := ⟨s.sp.val + 1, by omega⟩, pc := addrOf nnn }

theorem exec_call_of_fits (nnn : Addr12) {s : State} (h : s.sp.val < 16) (hpc : s.pc.toNat + 2 ≤ 0x0FFF) :
    exec (.call nnn) s = .next (callState nnn s h) :=
  (exec_call_eq nnn s).trans ((dif_pos h).trans (if_pos ((returnAddressFits_iff s).2 hpc)))

theorem faults_call_stackOverflow (nnn : Addr12) {s : State} (h : s.sp.val = 16) : Faults (.call nnn) s .stackOverflow :=
  faults_of_exec ((exec_call_eq nnn s).trans (dif_neg (by omega)))

theorem faults_call_returnAddressRange (nnn : Addr12) {s : State} (h : s.sp.val < 16) (hpc : 0x0FFF < s.pc.toNat + 2) :
    Faults (.call nnn) s .returnAddressRange :=
  faults_of_exec ((exec_call_eq nnn s).trans ((dif_pos h).trans (if_neg (by rw [returnAddressFits_iff]; omega))))

theorem callState_unchanged (nnn : Addr12) (s : State) (h : s.sp.val < 16) : UnchangedBut [.pc, .stack] s (callState nnn s h) :=
  unchangedBut_stack_pc s _ _ _

theorem callState_stk (nnn : Addr12) (s : State) (h : s.sp.val < 16) (k : Fin 16) :
    (callState nnn s h).stk[k.val] = if s.sp.val = k.val then returnAddress s else s.stk[k.val] :=
  Vector.getElem_set h k.isLt

theorem exec_ret_of_pos (x : Nibble) {s : State} (h : 0 < s.sp.val) :
    exec (.ret x) s = .next { s with sp := ⟨s.sp.val - 1, by omega⟩, pc := addrOf s.stk[s.sp.val - 1] } :=
  (exec_ret_eq x s).trans (dif_pos h)

/-- The Return at a Call's target pops what the Call pushed: it comes back behind the Call (R93). -/
theorem exec_ret_callState (x : Nibble) (nnn : Addr12) (s : State) (h : s.sp.val < 16) :
    exec (.ret x) (callState nnn s h) = .next { callState nnn s h with sp := s.sp, pc := addrOf (returnAddress s) } := by
  have htop : (callState nnn s h).stk[s.sp.val] = returnAddress s := (callState_stk nnn s h ⟨s.sp.val, h⟩).trans (if_pos rfl)
  rw [← htop]
  exact exec_ret_of_pos x (Nat.succ_pos s.sp.val)

/-- Settles O14: the three ways of a Call by its equation, and the Return from the state it leaves. -/
theorem callPushesOrFaults : Obligations.CallPushesOrFaults := by
  intro nnn s
  have hroom : s.sp.val ≠ 16 → s.sp.val < 16 := by omega
  refine ⟨hasWord_of_encodeWord rfl rfl, faults_call_stackOverflow nnn,
    fun hne hpc => faults_call_returnAddressRange nnn (hroom hne) hpc, fun hne hpc => ?_⟩
  have h := hroom hne
  refine ⟨callState nnn s h, exec_call_of_fits nnn h hpc, rfl, rfl, fun k => ⟨fun hk => ?_, fun hk => ?_⟩,
    callState_unchanged nnn s h, fun x => ⟨_, exec_ret_callState x nnn s h, addrOf_returnAddress hpc, rfl, ?_⟩⟩
  · rw [callState_stk, if_pos hk.symm, returnAddress_toNat hpc]
  · rw [callState_stk, if_neg (Ne.symm hk)]
  · exact (callState_unchanged nnn s h).trans_self (unchangedBut_stack_pc _ _ _ _)

/-- Settles O13: the two ways of a Return by its equation; the pop writes no entry of the stack. -/
theorem returnPopsOrUnderflows : Obligations.ReturnPopsOrUnderflows := fun x s =>
  ⟨hasWord_of_encodeWord rfl rfl, fun h => faults_of_exec ((exec_ret_eq x s).trans (dif_neg (by omega))),
    fun h => ⟨_, exec_ret_of_pos x h, rfl, addrOf_toNat _, fun _ => rfl, unchangedBut_stack_pc s _ _ _⟩⟩

/-! The jumps (R90, R92, R94). -/

/-- JumpTo's target is the exact sum: it cannot wrap (R94). -/
theorem regAsWord_add_addrOf_toNat (s : State) (r : Reg) (nnn : Addr12) :
    (regAsWord s r + addrOf nnn).toNat = (s.getV r).toNat + nnn.toNat := by
  rw [BitVec.toNat_add, regAsWord_toNat, addrOf_toNat]; omega

/-- A transfer above the last address halts the machine, and its Steps are no-ops (R81, R171). -/
theorem halted_setPc (s : State) {a : Word} (h : 0x0FFF < a.toNat) :
    (s.setPc a).halted = true ∧ step (s.setPc a) = .next (s.setPc a) :=
  ⟨decide_eq_true h, step_of_guardStops ((guardStops_eq_true _).2 (.inr h))⟩

theorem exec_jumpTo (nnn : Addr12) (s : State) : exec (.jumpTo nnn) s = .next (s.setPc (regAsWord s 0 + addrOf nnn)) := rfl

/-- Settles O12: each jump is one write of `pc`; the halt is that of JumpTo's exact sum above the last address. -/
theorem jumpsSetOnlyThePc : Obligations.JumpsSetOnlyThePc := by
  intro nnn s
  have hsum := regAsWord_add_addrOf_toNat s 0 nnn
  refine ⟨fun hE0 hEE => hasWord_of_encodeWord rfl (by simpa [WellFormed] using ⟨hE0, hEE⟩), setsPc_of_exec rfl, hasWord_of_encodeWord rfl rfl,
    setsPc_of_exec rfl, hasWord_of_encodeWord rfl rfl, ⟨_, hsum, setsPc_of_exec (exec_jumpTo nnn s)⟩, fun t ht habove => ?_⟩
  obtain rfl : s.setPc (regAsWord s 0 + addrOf nnn) = t := by simpa [exec_jumpTo] using ht
  exact halted_setPc s (hsum ▸ habove)

end Sys2Proof.Machine

/-! The skips (42_skip.md): each writes `pc` alone, by its condition; the two key skips fault above key 15. -/

namespace Sys2Proof.Machine

open Sys2Proof.Claims

/-- The pc by the class of the skips (R86), and the frame (R106). -/
theorem skips_of_exec {i : Instr} {s : State} {P : Prop} {c : Bool} (h : exec i s = .next (s.skipInstr c)) (hc : c = true ↔ P) : Skips i s P :=
  have ⟨hpc, hpc'⟩ := holds_skipInstr s hc
  ⟨_, h, hpc, hpc', unchangedBut_skipInstr c s⟩

/-- Settles O15: each comparing skip is `skipInstr` on its comparison, for VF like for any other register. -/
theorem comparingSkipsTestAndStep : Obligations.ComparingSkipsTestAndStep := fun _ _ _ _ _ =>
  ⟨hasWord_of_encodeWord rfl rfl, skips_of_exec rfl beq_iff_eq, hasWord_of_encodeWord rfl rfl, skips_of_exec rfl bne_iff_ne,
    hasWord_of_encodeWord rfl rfl, skips_of_exec rfl beq_iff_eq, hasWord_of_encodeWord rfl rfl, skips_of_exec rfl bne_iff_ne⟩

/-! The two sides of the key index bound: the whole register value is the index (R104, R105). -/

theorem keyIndex_eq_none {s : State} {x : Reg} (h : 15 < (s.getV x).toNat) : keyIndex s x = none := by
  obtain ⟨-, hk⟩ | ⟨hlt, -⟩ := keyIndex_cases s x
  · exact hk
  · omega

theorem keyIndex_eq_some {s : State} {x : Reg} (h : (s.getV x).toNat ≤ 15) :
    keyIndex s x = some ⟨(s.getV x).toNat, Nat.lt_succ_of_le h⟩ := by
  obtain ⟨hgt, -⟩ | ⟨_, hk⟩ := keyIndex_cases s x
  · omega
  · exact hk

theorem faults_skipNextKeyPressed {s : State} {x : Reg} (h : 15 < (s.getV x).toNat) : Faults (.skipNextKeyPressed x) s .keyIndexRange :=
  faults_of_exec (by simp only [exec, execSkipNextKeyPressed, keyIndex_eq_none h, faultIn])

theorem faults_skipNextKeyNotPressed {s : State} {x : Reg} (h : 15 < (s.getV x).toNat) :
    Faults (.skipNextKeyNotPressed x) s .keyIndexRange :=
  faults_of_exec (by simp only [exec, execSkipNextKeyNotPressed, keyIndex_eq_none h, faultIn])

theorem exec_skipNextKeyPressed {s : State} {x : Reg} (h : (s.getV x).toNat ≤ 15) :
    exec (.skipNextKeyPressed x) s = .next (s.skipInstr (s.keys.getLsbD (s.getV x).toNat)) := by
  simp only [exec, execSkipNextKeyPressed, keyIndex_eq_some h, State.keyDown]

theorem exec_skipNextKeyNotPressed {s : State} {x : Reg} (h : (s.getV x).toNat ≤ 15) :
    exec (.skipNextKeyNotPressed x) s = .next (s.skipInstr (!s.keys.getLsbD (s.getV x).toNat)) := by
  simp only [exec, execSkipNextKeyNotPressed, keyIndex_eq_some h, State.keyDown]

/-- Settles O16: above 15 there is no key index; up to 15 each key skip is `skipInstr` on the level of the key the register names. -/
theorem keySkipsTestTheKeyOrFault : Obligations.KeySkipsTestTheKeyOrFault := fun _ _ =>
  ⟨hasWord_of_encodeWord rfl rfl, hasWord_of_encodeWord rfl rfl, fun h => ⟨faults_skipNextKeyPressed h, faults_skipNextKeyNotPressed h⟩,
    fun h => ⟨skips_of_exec (exec_skipNextKeyPressed h) .rfl,
      skips_of_exec (exec_skipNextKeyNotPressed h) (.of_eq (Bool.not_eq_true' _))⟩⟩

end Sys2Proof.Machine

/-! The register, ALU and random instructions (43_register_alu.md): one lemma for those that write a register, one for those that write a result
and then a flag, the arithmetic of the results and of the flags. -/

namespace Sys2Proof.Machine

open Sys2Proof.Claims

theorem unchangedBut_setV_endInstr (s : State) (x : Reg) (b : Byte) : UnchangedBut [.regs, .pc] s (s.setV x b).endInstr :=
  (unchangedBut_setV s x b).trans (unchangedBut_endInstr _)

theorem writesReg_of_exec {i : Instr} {s : State} {x : Reg} {b val : Byte} (h : exec i s = .next (s.setV x b).endInstr) (hb : b = val) :
    WritesReg i s x val :=
  ⟨_, h, hb ▸ fun r => setV_getV s x r b, rfl, unchangedBut_setV_endInstr s x b⟩

theorem setResultFlag_getV_VF (s : State) (x : Reg) (b : Byte) (f : Bool) : (s.setResultFlag x b f).getV VF = flagByte f := by
  rw [setResultFlag_getV, if_pos rfl]

/-- The flag is written last, so VF holds it even when VF is the destination (R87, R123). -/
theorem writesRegAndFlag_of_exec {i : Instr} {s : State} {x : Reg} {b val : Byte} {f : Bool} {P : Prop}
    (h : exec i s = .next (s.setResultFlag x b f).endInstr) (hb : b = val) (hf : f = true ↔ P) : WritesRegAndFlag i s x val P := by
  have hflag := setResultFlag_getV_VF s x b f
  refine ⟨_, h, fun hP => ?_, fun hP => ?_, fun r hr => ?_, rfl, (unchangedBut_setResultFlag s x b f).trans (unchangedBut_endInstr _)⟩
  · exact hflag.trans (congrArg flagByte (hf.2 hP))
  · exact hflag.trans (congrArg flagByte (Bool.eq_false_iff.2 (mt hf.1 hP)))
  · rw [endInstr_getV, setResultFlag_getV, if_neg hr, hb]

/-! The results as numbers. -/

theorem add_eq_ofNat_mod (a b : Byte) : a + b = BitVec.ofNat 8 ((a.toNat + b.toNat) % 256) := by
  bv_omega

theorem sub_eq_ofInt (a b : Byte) : a - b = BitVec.ofInt 8 ((a.toNat : Int) - b.toNat) := by
  bv_omega

theorem ushiftRight_one_eq_ofNat_div (a : Byte) : a >>> 1 = BitVec.ofNat 8 (a.toNat / 2) := by
  bv_omega

theorem shiftLeft_one_eq_ofNat_mul_mod (a : Byte) : a <<< 1 = BitVec.ofNat 8 (a.toNat * 2 % 256) := by
  bv_omega

/-! The flags as conditions on the numbers (R116 to R120). -/

theorem carryFlag_iff (a b : Byte) : carryFlag a b = true ↔ 255 < a.toNat + b.toNat := decide_eq_true_iff

theorem noBorrowFlag_iff (a b : Byte) : noBorrowFlag a b = true ↔ b.toNat ≤ a.toNat := decide_eq_true_iff

theorem shrFlag_iff (a : Byte) : shrFlag a = true ↔ a.toNat % 2 = 1 := by
  rw [shrFlag, BitVec.getLsbD, Nat.testBit_zero, decide_eq_true_iff]

theorem shlFlag_iff (a : Byte) : shlFlag a = true ↔ 128 ≤ a.toNat := by
  have hmsb : shlFlag a = a.msb := (BitVec.msb_eq_getLsbD_last a).symm
  rw [hmsb, BitVec.msb_eq_decide, decide_eq_true_iff]

/-- Settles O6: each is one `setV`; the sum is the wrapping one. -/
theorem literalInstructionsWriteOneRegister : Obligations.LiteralInstructionsWriteOneRegister := fun _ _ _ =>
  ⟨hasWord_of_encodeWord rfl rfl, writesReg_of_exec rfl rfl,
    hasWord_of_encodeWord rfl rfl, writesReg_of_exec rfl (add_eq_ofNat_mod _ _)⟩

/-- Settles O7: each is one `setV`; the bits of the results are those of the word operations. -/
theorem copyAndLogicWriteOneRegister : Obligations.CopyAndLogicWriteOneRegister := fun _ _ _ =>
  ⟨hasWord_of_encodeWord rfl rfl, writesReg_of_exec rfl rfl,
    hasWord_of_encodeWord rfl rfl, ⟨_, fun _ => BitVec.getLsbD_or, writesReg_of_exec rfl rfl⟩,
    hasWord_of_encodeWord rfl rfl, ⟨_, fun _ => BitVec.getLsbD_and, writesReg_of_exec rfl rfl⟩,
    hasWord_of_encodeWord rfl rfl, ⟨_, fun _ => BitVec.getLsbD_xor, writesReg_of_exec rfl rfl⟩⟩

/-- Settles O8: the wrapping sum, and the carry written last. -/
theorem addWritesSumThenCarry : Obligations.AddWritesSumThenCarry := fun _ _ _ =>
  ⟨hasWord_of_encodeWord rfl rfl, writesRegAndFlag_of_exec rfl (add_eq_ofNat_mod _ _) (carryFlag_iff _ _)⟩

/-- Settles O9: the wrapping difference each way round, and its no-borrow flag written last. -/
theorem subtractWritesDifferenceThenNoBorrow : Obligations.SubtractWritesDifferenceThenNoBorrow := fun _ _ _ =>
  ⟨hasWord_of_encodeWord rfl rfl, writesRegAndFlag_of_exec rfl (sub_eq_ofInt _ _) (noBorrowFlag_iff _ _),
    hasWord_of_encodeWord rfl rfl, writesRegAndFlag_of_exec rfl (sub_eq_ofInt _ _) (noBorrowFlag_iff _ _)⟩

/-- Settles O10: the shift by one as half and double, and the bit shifted out written last. -/
theorem shiftsWriteInPlaceThenTheBitShiftedOut : Obligations.ShiftsWriteInPlaceThenTheBitShiftedOut := fun _ _ _ =>
  ⟨hasWord_of_encodeWord rfl rfl, writesRegAndFlag_of_exec rfl (ushiftRight_one_eq_ofNat_div _) (shrFlag_iff _),
    hasWord_of_encodeWord rfl rfl, writesRegAndFlag_of_exec rfl (shiftLeft_one_eq_ofNat_mul_mod _) (shlFlag_iff _)⟩

/-! RandBitwiseAnd, for every byte the random source presents (R121). -/

theorem randBitwiseAndWith_getV (rnd : Byte) (x : Reg) (kk : Byte) (s : State) (r : Reg) :
    (randBitwiseAndWith rnd x kk s).getV r = if r = x then rnd &&& kk else s.getV r := setV_getV s x r _

theorem randBitwiseAndWith_unchanged (rnd : Byte) (x : Reg) (kk : Byte) (s : State) :
    UnchangedBut [.regs, .pc] s (randBitwiseAndWith rnd x kk s) := unchangedBut_setV_endInstr s x _

theorem exec_randBitwiseAnd (x : Reg) (kk : Byte) (s : State) :
    exec (.randBitwiseAnd x kk) s = .next (randBitwiseAndWith (Config.rnd s.rndIndex) x kk (drawRandom s).2) := rfl

theorem and_and_not_self (rnd kk : Byte) : rnd &&& kk &&& ~~~kk = 0 := by
  rw [BitVec.and_assoc, BitVec.and_not_self]
  exact BitVec.and_zero

/-- Settles O11: the draw, then the rule at the byte drawn. -/
theorem randomByteIsMaskedIntoRegister : Obligations.RandomByteIsMaskedIntoRegister := by
  intro x kk s
  have hget rnd t : (randBitwiseAndWith rnd x kk t).getV x = rnd &&& kk := by rw [randBitwiseAndWith_getV, if_pos rfl]
  have hframe := (unchangedBut_drawRandom s).trans (randBitwiseAndWith_unchanged (Config.rnd s.rndIndex) x kk (drawRandom s).2)
  refine ⟨hasWord_of_encodeWord rfl rfl, ⟨_, exec_randBitwiseAnd x kk s, randBitwiseAndWith_getV _ x kk (drawRandom s).2, ?_, rfl, rfl,
    hframe.mono (by simp)⟩, exec_randBitwiseAnd x kk s, fun rnd => ⟨hget rnd s, rfl, fun r hr => ?_, randBitwiseAndWith_unchanged rnd x kk s⟩⟩
  · rw [hget, and_and_not_self]
  · exact setV_getV_of_ne hr

end Sys2Proof.Machine

/-! The index register and memory instructions (44_index_memory.md): one lemma for those that write the index, one for those that store bytes, the
decimal digits, and the state after a load of registers. -/

namespace Sys2Proof.Machine

open Sys2Proof.Claims

/-! The index instructions (R130 to R132). -/

theorem writesIndex_of_exec {i : Instr} {s : State} {a : Word} {val : Nat} (h : exec i s = .next (s.setI a).endInstr) (ha : a.toNat = val) :
    WritesIndex i s val :=
  ⟨_, h, ha, rfl, (unchangedBut_setI s a).trans (unchangedBut_endInstr _)⟩

theorem add_regAsWord_toNat (a : Word) (s : State) (r : Reg) :
    (a + regAsWord s r).toNat = (a.toNat + (s.getV r).toNat) % 65536 := by
  rw [BitVec.toNat_add, regAsWord_toNat]

/-- Five times a byte fits a word (R132). -/
theorem regAsWord_mul_five_toNat (s : State) (r : Reg) : (regAsWord s r * 5).toNat = (s.getV r).toNat * 5 := by
  have hfits : (s.getV r).toNat * 5 < 2 ^ 16 := by omega
  rw [BitVec.toNat_mul, regAsWord_toNat]
  exact Nat.mod_eq_of_lt hfits

/-- Settles O17: each is one `setI`, its index as a number. -/
theorem indexInstructionsWriteOnlyTheIndex : Obligations.IndexInstructionsWriteOnlyTheIndex := fun nnn x s =>
  ⟨hasWord_of_encodeWord rfl rfl, writesIndex_of_exec rfl (addrOf_toNat nnn),
    hasWord_of_encodeWord rfl rfl, writesIndex_of_exec rfl (add_regAsWord_toNat s.i s x),
    hasWord_of_encodeWord rfl rfl, writesIndex_of_exec rfl (regAsWord_mul_five_toNat s x)⟩

/-! The storing instructions (R133, R134). -/

theorem stores_of_exec {i : Instr} {s : State} {a : Nat} {bs : List Byte} (hm : Memory.wf s.mem = true) (hr : a + bs.length ≤ 4096)
    (h : exec i s = .next (s.setMem (Memory.setBytes s.mem a bs)).endInstr) : Stores i s a bs :=
  ⟨_, h, fun _ hk => get_setBytes_add hm hr hk, fun _ hc => get_setBytes_of_outside hm hr hc, wf_setBytes hm hr, rfl,
    (unchangedBut_setMem s _).trans (unchangedBut_endInstr _)⟩

theorem exec_storeBCDAtIndex {x : Reg} {s : State} (h : dataBase s + 2 ≤ 0x0FFF) :
    exec (.storeBCDAtIndex x) s = .next (s.setMem (Memory.setBytes s.mem (dataBase s) (bcdDigits (s.getV x)))).endInstr := by
  have hw := memWrite_eq_some s.mem (a := dataBase s) (bs := bcdDigits (s.getV x)) (by rw [length_bcdDigits]; omega)
  simp only [exec, execStoreBCDAtIndex, hw]

theorem faults_storeBCDAtIndex {x : Reg} {s : State} (h : 0x0FFF < dataBase s + 2) : Faults (.storeBCDAtIndex x) s .dataBounds := by
  have hw := memWrite_eq_none s.mem (a := dataBase s) (bs := bcdDigits (s.getV x)) (by simp) (by rw [length_bcdDigits]; omega)
  exact faults_of_exec (by simp only [exec, execStoreBCDAtIndex, hw, faultIn])

theorem faults_storeRegistersAtIndex {x : Reg} {s : State} (h : 0x0FFF < dataBase s + x.val) :
    Faults (.storeRegistersAtIndex x) s .dataBounds := by
  have hw := memWrite_eq_none s.mem (a := dataBase s) (bs := regsUpTo s x) (by simp) (by rw [length_regsUpTo]; omega)
  exact faults_of_exec (by simp only [exec, execStoreRegistersAtIndex, hw, faultIn])

/-- The three bytes of `bcdDigits` as numbers: each is small enough for a byte (R133). -/
theorem exists_bcdDigits_eq (b : Byte) : ∃ h t u : Byte, bcdDigits b = [h, t, u] ∧
    h.toNat = b.toNat / 100 ∧ t.toNat = b.toNat / 10 % 10 ∧ u.toNat = b.toNat % 10 := by
  have hbyte {n : Nat} (hn : n < 2 ^ 8) : (BitVec.ofNat 8 n).toNat = n := by rw [BitVec.toNat_ofNat, Nat.mod_eq_of_lt hn]
  exact ⟨_, _, _, rfl, hbyte (by omega), hbyte (by omega), hbyte (by omega)⟩

/-- Settles O18: the bytes stored are the three digits; that they are digits, and the register's value together, is arithmetic. -/
theorem storeBcdWritesThreeDigitsOrFaults : Obligations.StoreBcdWritesThreeDigitsOrFaults := by
  intro x s hm
  refine ⟨hasWord_of_encodeWord rfl rfl, fun hr => ?_, faults_storeBCDAtIndex⟩
  obtain ⟨h, t, u, hbs, hh, ht, hu⟩ := exists_bcdDigits_eq (s.getV x)
  have hstores : Stores (.storeBCDAtIndex x) s (dataBase s) [h, t, u] :=
    hbs ▸ stores_of_exec hm (by rw [length_bcdDigits]; omega) (exec_storeBCDAtIndex hr)
  exact ⟨h, t, u, hh, ht, hu, by omega, by omega, by omega, by omega, hstores⟩

theorem getElem?_regsUpTo {x k : Reg} (s : State) (h : k.val ≤ x.val) : (regsUpTo s x)[k.val]? = some (s.getV k) := by
  have hl : k.val < (regsUpTo s x).length := by rw [length_regsUpTo]; omega
  rw [List.getElem?_eq_getElem hl, getElem_regsUpTo]

/-- Settles O19: the bytes stored are V0 up to Vx in order. -/
theorem storeRegistersWritesTheRangeOrFaults : Obligations.StoreRegistersWritesTheRangeOrFaults := fun x s hm =>
  ⟨hasWord_of_encodeWord rfl rfl,
    fun hr => ⟨regsUpTo s x, length_regsUpTo s x, fun _ hk => getElem?_regsUpTo s hk,
      stores_of_exec hm (by rw [length_regsUpTo]; omega) (exec_storeRegistersAtIndex hr)⟩,
    faults_storeRegistersAtIndex⟩

/-! ReadRegistersAtIndex, and the round trip (R135). -/

/-- The state a ReadRegistersAtIndex that completes leaves (R135). -/
def loadedState (x : Reg) (s : State) : State :=
  (s.setRegs (loadRegs (Memory.bytes s.mem (dataBase s) (x.val + 1)) s.v)).endInstr

theorem exec_readRegistersAtIndex {x : Reg} {s : State} (h : dataBase s + x.val ≤ 0x0FFF) :
    exec (.readRegistersAtIndex x) s = .next (loadedState x s) := by
  have hb := memRead_eq_some s.mem (a := dataBase s) (n := x.val + 1) (by omega)
  simp only [exec, execReadRegistersAtIndex, hb, loadedState]

theorem faults_readRegistersAtIndex {x : Reg} {s : State} (h : 0x0FFF < dataBase s + x.val) :
    Faults (.readRegistersAtIndex x) s .dataBounds := by
  have hb := memRead_eq_none s.mem (a := dataBase s) (n := x.val + 1) (by omega) (by omega)
  exact faults_of_exec (by simp only [exec, execReadRegistersAtIndex, hb, faultIn])

theorem loadedState_getV_of_le {x k : Reg} (s : State) (h : k.val ≤ x.val) :
    (loadedState x s).getV k = Memory.get s.mem (dataBase s + k.val) := by
  rw [loadedState, endInstr_getV, setRegs_getV_loadRegs, dif_pos (by rw [length_bytes]; omega), getElem_bytes]

theorem loadedState_getV_of_lt {x k : Reg} (s : State) (h : x.val < k.val) : (loadedState x s).getV k = s.getV k :=
  setRegs_getV_loadRegs_of_not_le (length_bytes ..) (by omega)

theorem loadedState_unchanged (x : Reg) (s : State) : UnchangedBut [.regs, .pc] s (loadedState x s) :=
  (unchangedBut_setRegs s _).trans (unchangedBut_endInstr _)

/-- Every register comes back from a store of V0 up to Vx: up to `x` from memory, above `x` as it was (R135). -/
theorem loadedState_getV_of_stored {x : Reg} {s : State} (hm : Memory.wf s.mem = true) (hr : dataBase s + x.val ≤ 0x0FFF) (r : Reg) :
    (loadedState x (s.setMem (Memory.setBytes s.mem (dataBase s) (regsUpTo s x))).endInstr).getV r = s.getV r := by
  obtain h | h := Nat.lt_or_ge x.val r.val
  · exact loadedState_getV_of_lt _ h
  · exact (loadedState_getV_of_le _ h).trans (get_setBytes_regsUpTo hm hr h)

/-- Settles O20: the load in its frame; after the store the index is the same, so the load reads the bytes stored. -/
theorem readRegistersLoadsTheRangeOrFaults : Obligations.ReadRegistersLoadsTheRangeOrFaults := by
  intro x s
  refine ⟨hasWord_of_encodeWord rfl rfl,
    fun hr => ⟨_, exec_readRegistersAtIndex hr, fun _ => ⟨loadedState_getV_of_le s, loadedState_getV_of_lt s⟩, rfl, loadedState_unchanged x s⟩,
    faults_readRegistersAtIndex, fun t hm hr ht => ?_⟩
  obtain rfl : (s.setMem (Memory.setBytes s.mem (dataBase s) (regsUpTo s x))).endInstr = t := by
    simpa [exec_storeRegistersAtIndex hr] using ht
  exact ⟨_, exec_readRegistersAtIndex hr, loadedState_getV_of_stored hm hr, rfl, fun _ => rfl⟩

end Sys2Proof.Machine

/-! The display instructions (45_display.md): the state a DrawSprite that completes leaves, its pixels and its flag in terms of the pixels the
sprite lands on, and the second draw of the same sprite. -/

namespace Sys2Proof.Machine

open Sys2Proof.Claims

/-- Settles O25: one `setDisplay` of the framebuffer with every pixel 0. -/
theorem clearBlanksTheFramebuffer : Obligations.ClearBlanksTheFramebuffer := fun _ s =>
  ⟨hasWord_of_encodeWord rfl rfl, _, rfl, pixel_clearedFb, rfl, rfl, (unchangedBut_setDisplay s _).trans (unchangedBut_endInstr _)⟩

/-! DrawSprite on each side of the bound (R141). -/

/-- What DrawSprite draws: the sprite's bytes at `I` on, at the coordinates the registers hold before VF is written (R87, R141). -/
def drawnSprite (x y : Reg) (n : Nibble) (s : State) : Framebuffer × Bool :=
  drawSprite (s.getV x) (s.getV y) (Memory.bytes s.mem (dataBase s) n.toNat) s.fb

/-- The state a DrawSprite that completes leaves (R141). -/
def drawnState (x y : Reg) (n : Nibble) (s : State) : State :=
  ((s.setDisplay (drawnSprite x y n s).1).setFlag (drawnSprite x y n s).2).endInstr

theorem exec_drawSprite {x y : Reg} {n : Nibble} {s : State} (h : n.toNat = 0 ∨ dataBase s + n.toNat - 1 ≤ 0x0FFF) :
    exec (.drawSprite x y n) s = .next (drawnState x y n s) := by
  have hr := memRead_eq_some s.mem (a := dataBase s) (n := n.toNat) (by omega)
  simp only [exec, execDrawSprite, hr, drawnState, drawnSprite]

theorem faults_drawSprite {x y : Reg} {n : Nibble} {s : State} (hn : 1 ≤ n.toNat) (h : 0x0FFF < dataBase s + n.toNat - 1) :
    Faults (.drawSprite x y n) s .dataBounds :=
  faults_of_exec (by simp only [exec, execDrawSprite, memRead_eq_none s.mem hn h, faultIn])

theorem drawnState_unchanged (x y : Reg) (n : Nibble) (s : State) :
    UnchangedBut [.regs, .pixels, .redraw, .pc] s (drawnState x y n s) :=
  (((unchangedBut_setDisplay s _).trans (unchangedBut_setFlag _ _)).trans (unchangedBut_endInstr _)).mono (by simp)

theorem drawnState_getV_of_ne {x y r : Reg} {n : Nibble} {s : State} (h : r ≠ VF) : (drawnState x y n s).getV r = s.getV r :=
  setV_getV_of_ne h

/-! The pixels and the flag (R142, R143). -/

/-- The pixels a sprite lands on are the places its drawing inverts. -/
theorem spriteLands_iff (s : State) (x y : Reg) (n : Nibble) (row : Fin 32) (col : Fin 64) :
    SpriteLands s x y n row col ↔ (row, col) ∈ landings (s.getV x) (s.getV y) 0 (Memory.bytes s.mem (dataBase s) n.toNat) := by
  simp only [SpriteLands, mem_landings, length_bytes, getElem_bytes, exists_prop, spriteBit, rowAt, colAt, Prod.mk.injEq, Fin.ext_iff,
    Nat.zero_add]

theorem length_sprite_le (s : State) (n : Nibble) : (Memory.bytes s.mem (dataBase s) n.toNat).length ≤ 32 := by
  rw [length_bytes]; omega

theorem pixel_drawnState_of_lands {s : State} {x y : Reg} {n : Nibble} {row : Fin 32} {col : Fin 64} (h : SpriteLands s x y n row col) :
    pixel (drawnState x y n s).fb row col = !pixel s.fb row col := by
  have hp := pixel_drawSprite (s.getV x) (s.getV y) _ s.fb (length_sprite_le s n) row col
  rwa [decide_eq_true ((spriteLands_iff ..).1 h), Bool.xor_true] at hp

theorem pixel_drawnState_of_not_lands {s : State} {x y : Reg} {n : Nibble} {row : Fin 32} {col : Fin 64} (h : ¬SpriteLands s x y n row col) :
    pixel (drawnState x y n s).fb row col = pixel s.fb row col := by
  have hp := pixel_drawSprite (s.getV x) (s.getV y) _ s.fb (length_sprite_le s n) row col
  rwa [decide_eq_false (mt (spriteLands_iff ..).2 h), Bool.xor_false] at hp

/-- The collision: the sprite lands on a lit pixel. -/
theorem drawnSprite_collides_iff (x y : Reg) (n : Nibble) (s : State) :
    (drawnSprite x y n s).2 = true ↔ ∃ row col, SpriteLands s x y n row col ∧ pixel s.fb row col = true := by
  simp only [drawnSprite, collision_drawSprite _ _ _ _ (length_sprite_le s n), spriteLands_iff, Prod.exists]

theorem drawnState_getV_VF (x y : Reg) (n : Nibble) (s : State) : (drawnState x y n s).getV VF = flagByte (drawnSprite x y n s).2 := by
  rw [drawnState, endInstr_getV, setFlag_getV, if_pos rfl]

/-- Settles O26: the pixels the sprite lands on are those the drawing inverts, and the flag written is its collision. -/
theorem drawSpriteXorsTheSpriteAndFlagsCollision : Obligations.DrawSpriteXorsTheSpriteAndFlagsCollision := by
  intro x y n s
  have hflag := drawnState_getV_VF x y n s
  have hcoll := drawnSprite_collides_iff x y n s
  refine ⟨hasWord_of_encodeWord rfl rfl, faults_drawSprite, fun hr => ⟨_, exec_drawSprite hr,
    fun _ _ => ⟨pixel_drawnState_of_lands, pixel_drawnState_of_not_lands⟩, fun hlit => ?_, fun hlit => ?_,
    fun _ => drawnState_getV_of_ne, rfl, rfl, drawnState_unchanged x y n s⟩⟩
  · exact hflag.trans (congrArg flagByte (hcoll.2 hlit))
  · exact hflag.trans (congrArg flagByte (Bool.eq_false_iff.2 (mt hcoll.1 hlit)))

/-! The same sprite drawn twice (R141's property). -/

theorem flagByte_eq_one_iff (f : Bool) : flagByte f = 0x01 ↔ f = true := by cases f <;> decide

/-- A draw leaves the sprite where it lands, when neither coordinate is in VF: the flag is all it writes that a draw reads back (R87). -/
theorem spriteLands_drawnState_iff {s : State} {x y : Reg} {n : Nibble} (hx : x ≠ VF) (hy : y ≠ VF) (row : Fin 32) (col : Fin 64) :
    SpriteLands (drawnState x y n s) x y n row col ↔ SpriteLands s x y n row col := by
  simp only [SpriteLands, drawnState_getV_of_ne hx, drawnState_getV_of_ne hy]
  exact .rfl

/-- Each pixel is inverted by both draws or by neither. -/
theorem drawnState_drawnState_fb {s : State} {x y : Reg} {n : Nibble} (hx : x ≠ VF) (hy : y ≠ VF) :
    (drawnState x y n (drawnState x y n s)).fb = s.fb := by
  refine fb_ext fun row col => ?_
  have hsame := spriteLands_drawnState_iff (s := s) (n := n) hx hy row col
  by_cases hl : SpriteLands s x y n row col
  · rw [pixel_drawnState_of_lands (hsame.2 hl), pixel_drawnState_of_lands hl, Bool.not_not]
  · rw [pixel_drawnState_of_not_lands (mt hsame.1 hl), pixel_drawnState_of_not_lands hl]

/-- The lit pixels under the sprite after a draw are those the draw took from 0 to 1. -/
theorem lands_and_lit_iff {s : State} {x y : Reg} {n : Nibble} (row : Fin 32) (col : Fin 64) :
    SpriteLands s x y n row col ∧ pixel (drawnState x y n s).fb row col = true ↔
      pixel s.fb row col = false ∧ pixel (drawnState x y n s).fb row col = true := by
  by_cases hl : SpriteLands s x y n row col
  · simp [hl, pixel_drawnState_of_lands hl]
  · simp [hl, pixel_drawnState_of_not_lands hl]

/-- Settles O27: both draws land on the same pixels, and the second collides on those the first lit. -/
theorem drawingTwiceRestoresTheFramebuffer : Obligations.DrawingTwiceRestoresTheFramebuffer := by
  intro x y n s t hx hy hr ht
  obtain rfl : drawnState x y n s = t := by simpa [exec_drawSprite hr] using ht
  refine ⟨_, exec_drawSprite hr, drawnState_drawnState_fb hx hy, ?_⟩
  rw [drawnState_getV_VF, flagByte_eq_one_iff, drawnSprite_collides_iff]
  simp only [spriteLands_drawnState_iff hx hy, lands_and_lit_iff]

end Sys2Proof.Machine

/-! The timer and key-wait instructions (46_timers_keys.md): the timer copies, the key scan as a function of the keys, and KeyPressWait when it
completes and when it waits. -/

namespace Sys2Proof.Machine

open Sys2Proof.Claims

/-- Settles O28: each copy is one write, of the register or of one timer, followed by the advance. -/
theorem timerInstructionsCopyBetweenTimerAndRegister : Obligations.TimerInstructionsCopyBetweenTimerAndRegister := fun _ s =>
  ⟨hasWord_of_encodeWord rfl rfl, writesReg_of_exec rfl rfl,
    hasWord_of_encodeWord rfl rfl, ⟨_, rfl, rfl, rfl, (unchangedBut_setDt s _).trans (unchangedBut_endInstr _)⟩,
    hasWord_of_encodeWord rfl rfl, ⟨_, rfl, rfl, rfl, (unchangedBut_setSt s _).trans (unchangedBut_endInstr _)⟩⟩

/-! The key scan: with no key down it finds none, and a least key down is the one it finds (R151). -/

theorem firstKeyDown_eq_none {s : State} (h : ∀ k, s.keyDown k = false) : firstKeyDown s = none := by
  obtain ⟨-, hnone⟩ | ⟨k, hk, -, -⟩ := firstKeyDown_cases s
  · exact hnone
  · simp [h k] at hk

theorem firstKeyDown_eq_some {s : State} {k : Fin 16} (hk : s.keyDown k = true) (hleast : ∀ j < k, s.keyDown j = false) :
    firstKeyDown s = some k := by
  obtain ⟨hup, -⟩ | ⟨k', hk', hleast', hfirst⟩ := firstKeyDown_cases s
  · simp [hup k] at hk
  · obtain hlt | rfl | hgt := lt_trichotomy k k'
    · simp [hleast' k hlt] at hk
    · exact hfirst
    · simp [hleast k' hgt] at hk'

theorem exec_keyPressWait_of_no_key (x : Reg) {s : State} (h : ∀ k, s.keyDown k = false) : exec (.keyPressWait x) s = .next s := by
  simp only [exec, execKeyPressWait, firstKeyDown_eq_none h]

theorem exec_keyPressWait_of_least_key (x : Reg) {s : State} {k : Fin 16} (hk : s.keyDown k = true)
    (hleast : ∀ j < k, s.keyDown j = false) : exec (.keyPressWait x) s = .next (s.setV x (BitVec.ofNat 8 k.val)).endInstr := by
  simp only [exec, execKeyPressWait, firstKeyDown_eq_some hk hleast]

/-! The first phases write nothing the guard or the fetch reads, so a Step that leaves only their changes is followed by one that fetches the
same instruction (R80, R83). -/

@[simp] theorem guardStops_phases (s : State) : guardStops (phases s) = guardStops s := guardStops_congr rfl rfl

@[simp] theorem fetchedInstr_phases (s : State) : fetchedInstr (phases s) = fetchedInstr s := by
  have hw : fetchWord (phases s) = fetchWord s := fetchWord_congr rfl fun _ => rfl
  simp only [fetchedInstr, hw]

/-- A Step that fetches a KeyPressWait with no key down leaves the changes of its first phases and no other (R151). -/
theorem step_of_waiting {s : State} {x : Reg} (hg : guardStops s = false) (hi : fetchedInstr s = some (.keyPressWait x))
    (h : ∀ k, s.keyDown k = false) : step s = .next (phases s) :=
  (step_of_fetchedInstr hg hi).trans (exec_keyPressWait_of_no_key x h)

/-- Settles O29: by what the key scan finds; a waiting Step leaves the guard and the fetch as they were. -/
theorem keyPressWaitTakesTheLeastKeyOrHolds : Obligations.KeyPressWaitTakesTheLeastKeyOrHolds := by
  intro x s
  refine ⟨hasWord_of_encodeWord rfl rfl, exec_keyPressWait_of_no_key x, fun k hk hleast => ?_, fun hg hi hkeys => ?_⟩
  · exact writesReg_of_exec (exec_keyPressWait_of_least_key x hk hleast) rfl
  · exact ⟨step_of_waiting hg hi ((keys_eq_zero_iff s).1 hkeys), (guardStops_phases s).trans hg, (fetchedInstr_phases s).trans hi⟩

end Sys2Proof.Machine

/-! The faults of the execute phase (60_exceptions.md): an instruction raises the cause the rules make due and no other, and completes when none
is; from it the bounds of the memory instructions, that every Step answers, and the ways to halt. -/

namespace Sys2Proof.Machine

open Sys2Proof.Claims

/-- All that the execute phase can do, by the fault that is due: with none it completes and leaves the record, else it raises that fault and
writes nothing else (R161 to R168). -/
theorem exec_cases_causeDue (i : Instr) (s : State) :
    (causeDue i s = .noFault ∧ ∃ t, exec i s = .next t ∧ t.fault = s.fault) ∨
      ∃ c, causeDue i s = c ∧ canRaise i c ∧ exec i s = .next (raiseFault c (encodeWord i) s) := by
  cases i with
  | ret x =>
    by_cases h : s.sp.val = 0
    · exact .inr ⟨.stackUnderflow, if_pos h, ⟨x, rfl⟩, (exec_ret_eq x s).trans (dif_neg (by omega))⟩
    · exact .inl ⟨if_neg h, _, exec_ret_of_pos x (by omega), rfl⟩
  | call nnn =>
    by_cases h : s.sp.val = 16
    · exact .inr ⟨.stackOverflow, if_pos h, ⟨nnn, rfl⟩, (exec_call_eq nnn s).trans (dif_neg (by omega))⟩
    have hroom : s.sp.val < 16 := by omega
    by_cases hpc : 0x0FFF < s.pc.toNat + 2
    · have hfit : ¬returnAddressFits s = true := by rw [returnAddressFits_iff]; omega
      exact .inr ⟨.returnAddressRange, (if_neg h).trans (if_pos hpc), ⟨nnn, rfl⟩,
        (exec_call_eq nnn s).trans ((dif_pos hroom).trans (if_neg hfit))⟩
    · exact .inl ⟨(if_neg h).trans (if_neg hpc), _, exec_call_of_fits nnn hroom (by omega), rfl⟩
  | skipNextKeyPressed x =>
    by_cases h : 15 < (s.getV x).toNat
    · exact .inr ⟨.keyIndexRange, if_pos h, .inl ⟨x, rfl⟩, by simp only [exec, execSkipNextKeyPressed, keyIndex_eq_none h, faultIn]⟩
    · exact .inl ⟨if_neg h, _, exec_skipNextKeyPressed (by omega), rfl⟩
  | skipNextKeyNotPressed x =>
    by_cases h : 15 < (s.getV x).toNat
    · exact .inr ⟨.keyIndexRange, if_pos h, .inr ⟨x, rfl⟩, by simp only [exec, execSkipNextKeyNotPressed, keyIndex_eq_none h, faultIn]⟩
    · exact .inl ⟨if_neg h, _, exec_skipNextKeyNotPressed (by omega), rfl⟩
  | drawSprite x y n =>
    by_cases h : 1 ≤ n.toNat ∧ 0x0FFF < dataBase s + n.toNat - 1
    · have hr := memRead_eq_none s.mem h.1 h.2
      exact .inr ⟨.dataBounds, if_pos h, .inl ⟨x, y, n, rfl⟩, by simp only [exec, execDrawSprite, hr, faultIn]⟩
    · exact .inl ⟨if_neg h, _, exec_drawSprite (by omega), rfl⟩
  | storeBCDAtIndex x =>
    by_cases h : 0x0FFF < dataBase s + 2
    · have hw := memWrite_eq_none s.mem (bs := bcdDigits (s.getV x)) (by simp) h
      exact .inr ⟨.dataBounds, if_pos h, .inr (.inl ⟨x, rfl⟩), by simp only [exec, execStoreBCDAtIndex, hw, faultIn]⟩
    · exact .inl ⟨if_neg h, _, exec_storeBCDAtIndex (by omega), rfl⟩
  | storeRegistersAtIndex x =>
    by_cases h : 0x0FFF < dataBase s + x.val
    · have hw := memWrite_eq_none s.mem (a := dataBase s) (bs := regsUpTo s x) (by simp) (by rw [length_regsUpTo]; omega)
      exact .inr ⟨.dataBounds, if_pos h, .inr (.inr (.inl ⟨x, rfl⟩)), by simp only [exec, execStoreRegistersAtIndex, hw, faultIn]⟩
    · exact .inl ⟨if_neg h, _, exec_storeRegistersAtIndex (by omega), rfl⟩
  | readRegistersAtIndex x =>
    by_cases h : 0x0FFF < dataBase s + x.val
    · have hr := memRead_eq_none s.mem (a := dataBase s) (n := x.val + 1) (by omega) (by omega)
      exact .inr ⟨.dataBounds, if_pos h, .inr (.inr (.inr ⟨x, rfl⟩)), by simp only [exec, execReadRegistersAtIndex, hr, faultIn]⟩
    · exact .inl ⟨if_neg h, _, exec_readRegistersAtIndex (by omega), loadedState_unchanged x s .faultRecord (by simp)⟩
  | keyPressWait x =>
    obtain ⟨-, h⟩ | ⟨_, -, -, h⟩ := firstKeyDown_cases s <;> simp only [exec, execKeyPressWait, h] <;> exact .inl ⟨rfl, _, rfl, rfl⟩
  | _ => exact .inl ⟨rfl, _, rfl, rfl⟩

/-- Settles O38: by the fault that is due; no instruction can raise the cause "no fault". -/
theorem faultsAreRaisedExactlyWhenDue : Obligations.FaultsAreRaisedExactlyWhenDue := by
  intro i s
  obtain ⟨hd, t, ht, hf⟩ | ⟨c, rfl, hc, ht⟩ := exec_cases_causeDue i s
  · exact ⟨t, ht, fun _ => hf, fun hne => absurd hd hne⟩
  · refine ⟨_, ht, fun hd => ?_, fun _ => ⟨hc, rfl⟩⟩
    rw [hd] at hc
    exact hc.elim

/-- The fault record stays where no fault is due (R88). -/
theorem fault_of_exec_of_causeDue {i : Instr} {s t : State} (h : exec i s = .next t) (hd : causeDue i s = .noFault) :
    t.fault = s.fault := by
  obtain ⟨u, hu, hkeep, -⟩ := faultsAreRaisedExactlyWhenDue i s
  obtain rfl : u = t := by simpa [hu] using h
  exact hkeep hd

/-- Settles O24: each instruction's fault beyond its bound; within it none is due, so the record stays. -/
theorem dataBoundsRaisedExactlyBeyondMemory : Obligations.DataBoundsRaisedExactlyBeyondMemory := by
  intro x y n s
  refine ⟨faults_drawSprite, faults_storeBCDAtIndex, fun h => ⟨faults_storeRegistersAtIndex h, faults_readRegistersAtIndex h⟩,
    fun t h ht => fault_of_exec_of_causeDue ht (if_neg (by omega)), fun t h ht => fault_of_exec_of_causeDue ht (if_neg (by omega)), fun t h => ?_⟩
  rintro (ht | ht) <;> exact fault_of_exec_of_causeDue ht (if_neg (by omega))

/-- Settles O32: every kind of Step answers a next state, since every instruction does. -/
theorem everyStepAnswersANextState : Obligations.EveryStepAnswersANextState := by
  intro s
  obtain ⟨-, h⟩ | ⟨-, -, -, h⟩ | ⟨_, -, -, -, h⟩ | ⟨_, i, -, -, -, h⟩ := step_cases s
  · exact ⟨_, h⟩
  · exact ⟨_, h⟩
  · exact ⟨_, h⟩
  · obtain ⟨t, ht, -⟩ := faultsAreRaisedExactlyWhenDue i (phases s)
    exact ⟨t, h.trans ht⟩

/-! Finality, and the two abandoned Steps: the unknown opcode and the fetch at the last byte (R162, R169, R170). -/

/-- Settles O41: the guard stops a faulted machine through any actions but a reset, whose record is the clear one. -/
theorem faultIsFinalUntilReset : Obligations.FaultIsFinalUntilReset := by
  intro s hc
  refine ⟨fun as has => ?_, fun image hl => ⟨_, if_pos hl, rfl⟩⟩
  obtain ⟨t, ht, hst⟩ := hostRun_of_guardStops ((guardStops_eq_true s).2 (.inl hc)) has
  exact ⟨t, ht, hst .faultRecord (by simp), hst⟩

@[simp] theorem guardStops_reportUnknown (w : Word) (s : State) : guardStops (reportUnknown w s) = guardStops s := guardStops_congr rfl rfl

@[simp] theorem fetchWord_reportUnknown (w : Word) (s : State) : fetchWord (reportUnknown w s) = fetchWord s := fetchWord_congr rfl fun _ => rfl

/-- Settles O36: the report writes neither `pc`, the record nor memory, so the next Step fetches the same word and reports it again. -/
theorem unknownOpcodeIsReportedAndHolds : Obligations.UnknownOpcodeIsReportedAndHolds := by
  intro s w hg hf hd
  have hg' : guardStops (reportUnknown w (phases s)) = false := by rw [guardStops_reportUnknown, guardStops_phases, hg]
  have hf' : fetchWord (reportUnknown w (phases s)) = some w := by rw [fetchWord_reportUnknown, fetchWord_phases, hf]
  exact ⟨_, _, step_of_decodeWord_eq_error hg hf hd, rfl, step_of_decodeWord_eq_error hg' hf' hd, by simp⟩

/-- The first phases write the tick, the timers and the events (R82, R83). -/
theorem unchangedBut_phases (s : State) : UnchangedBut [.tick, .delayTimer, .soundTimer, .events] s (phases s) :=
  fun p hp => by cases p <;> simp_all [Part.same]

/-- Settles O37: at the last byte no word can be fetched; a record of FETCH_BOUNDS is no earlier one, so the Step latched it, at 0x0FFF. -/
theorem fetchAtTheLastByteFaults : Obligations.FetchAtTheLastByteFaults := by
  intro s hc
  refine ⟨fun hpc => ?_, fun t h ht => ?_⟩
  · have hg : guardStops s = false := (guardStops_eq_false s).2 ⟨hc, by simp [hpc]⟩
    obtain ⟨hle, -⟩ | ⟨-, hf⟩ := fetchWord_cases s
    · simp [hpc] at hle
    · exact ⟨_, step_of_fetchWord_eq_none hg hf, by rw [fetchFault_fault, phases_pc, hpc], rfl,
        (unchangedBut_phases s).trans (unchangedBut_raiseFault _ _ _)⟩
  · cases hg : guardStops s with
    | true =>
      obtain rfl : s = t := by simpa [step_of_guardStops hg] using h
      simp [hc] at ht
    | false =>
      obtain ⟨-, -, -, -, hiff⟩ := faultingStepLatchesPcAndWord s t hg h (by simp [ht])
      exact hiff.1 ht

/-- Settles O39: the codes are read off the table, and 7 is none of them, cause by cause. -/
theorem faultCodesAreTheTables : Obligations.FaultCodesAreTheTables :=
  ⟨rfl, rfl, rfl, rfl, rfl, rfl, rfl, fun c => by cases c <;> decide⟩

/-! The ways to halt (R86, R94, R171). -/

/-- Where an instruction that is not a direct transfer leaves `pc` (R86). -/
theorem pc_of_pcClass_holds {k : PcClass} {s t : State} (h : k.holds s t) (hk : ∀ a, k ≠ .direct a) :
    t.pc = s.pc ∨ t.pc = s.pc + 2 ∨ t.pc = s.pc + 4 := by
  cases k with
  | endInstr => exact .inr (.inl h)
  | direct a => exact absurd rfl (hk a)
  | skipInstr c =>
    obtain ⟨htaken, hnot⟩ := h
    by_cases hc : c
    · exact .inr (.inr (htaken hc))
    · exact .inr (.inl (hnot hc))
  | wait =>
    obtain ⟨hdown, hnone⟩ := h
    by_cases hkeys : s.keys = 0
    · exact .inl (hnone hkeys)
    · exact .inr (.inl (hdown hkeys))

/-- A direct transfer goes to a 12-bit address, but for JumpTo (R91 to R94). -/
theorem direct_target {i : Instr} {s : State} {a : Nat} (h : pcClass i s = .direct a) :
    a ≤ 0x0FFF ∨ ∃ nnn, i = .jumpTo nnn ∧ a = (s.getV 0).toNat + nnn.toNat := by
  cases i with
  | jump nnn | call nnn | ret =>
    obtain rfl := PcClass.direct.inj h
    exact .inl (by omega)
  | jumpTo nnn => exact .inr ⟨nnn, rfl, (PcClass.direct.inj h).symm⟩
  | _ => simp [pcClass] at h

/-- An instruction that moves `pc` moves it by 2 or 4, or to a 12-bit address, but for JumpTo (R86). -/
theorem pc_of_exec {i : Instr} {s t : State} (h : exec i s = .next t) :
    (t.pc = s.pc ∨ t.pc = s.pc + 2 ∨ t.pc = s.pc + 4) ∨ t.pc.toNat ≤ 0x0FFF ∨
      ∃ nnn, i = .jumpTo nnn ∧ t.pc.toNat = (s.getV 0).toNat + nnn.toNat := by
  obtain ⟨hd, -⟩ | ⟨c, -, -, hu⟩ := exec_cases_causeDue i s
  · have hclass := pcMovesByClass i s t hd h
    by_cases hk : ∃ a, pcClass i s = .direct a
    · obtain ⟨a, hk⟩ := hk
      obtain rfl : t.pc.toNat = a := by rwa [hk] at hclass
      exact .inr (direct_target hk)
    · exact .inl (pc_of_pcClass_holds hclass (not_exists.1 hk))
  · obtain rfl : raiseFault c (encodeWord i) s = t := by simpa [hu] using h
    exact .inl (.inl rfl)

/-- Settles O45: only an executed instruction moves `pc`, and to pass the end of memory it advances over it, or it is JumpTo. -/
theorem haltIsReachedOnlyOffTheEnd : Obligations.HaltIsReachedOnlyOffTheEnd := by
  intro s t hg h habove
  have hpc : s.pc.toNat ≤ 0x0FFF := ((guardStops_eq_false s).1 hg).2
  obtain ⟨-, hu | ⟨w, hu⟩⟩ | ⟨i, hi, hu⟩ := step_cases_fetchedInstr hg
  · obtain rfl : fetchFault (phases s) = t := by simpa [hu] using h
    exact absurd habove hpc.not_gt
  · obtain rfl : reportUnknown w (phases s) = t := by simpa [hu] using h
    exact absurd habove hpc.not_gt
  · have hword : s.pc.toNat ≤ 0x0FFE := by
      obtain ⟨w, hf, -⟩ := fetchedInstr_eq_some_iff.1 hi
      obtain ⟨hle, -⟩ | ⟨-, hn⟩ := fetchWord_cases s
      · exact hle
      · simp [hf] at hn
    have hmove := pc_of_exec (hu.symm.trans h)
    simp only [phases_pc, phases_getV] at hmove
    obtain (hp | hp | hp) | hle | ⟨nnn, rfl, hp⟩ := hmove
    · rw [hp] at habove; omega
    · exact .inl (by bv_omega)
    · have hfrom : s.pc = 0x0FFE ∧ t.pc = 0x1002 ∨ s.pc = 0x0FFC ∧ t.pc = 0x1000 ∨ s.pc = 0x0FFD ∧ t.pc = 0x1001 := by bv_omega
      exact .inr (hfrom.imp_right (Or.imp_right .inl))
    · omega
    · exact .inr (.inr (.inr (.inr ⟨nnn, hi, hp⟩)))

end Sys2Proof.Machine

/-! Reset (70_reset_and_hazards.md): the memory H-RESET leaves, and all the rest of its state; and the decode vectors of the spec. -/

namespace Sys2Proof.Machine

open Sys2Proof.Claims

/-- The image of a reset is read back from 0x200 on (R192). -/
theorem get_imageMem_add {image : List Byte} (hl : image.length ≤ 3584) {k : Nat} (hk : k < image.length) :
    Memory.get (imageMem image) (0x200 + k) = image[k] :=
  get_setBytes_add wf_reset (by simp only [Config.progBase]; omega) hk

/-- Outside the image memory reads as after a reset with none (R192). -/
theorem get_imageMem_of_outside {image : List Byte} (hl : image.length ≤ 3584) {a : Nat} (ha : a < 0x200 ∨ 0x200 + image.length ≤ a) :
    Memory.get (imageMem image) a = background a :=
  get_setBytes_of_outside wf_reset (by simp only [Config.progBase]; omega) ha

/-- The font as memory holds it is the table, glyph after glyph (R193). -/
theorem background_font : ∀ (d : Fin 16) (k : Fin 5),
    some (background (5 * d.val + k.val)) = (fontTable[d.val]?).bind (fun g => g[k.val]?) := by decide

/-- After the 80 bytes of the font the reset contents are zero (R192). -/
theorem background_eq_zero {a : Nat} (h : 0x050 ≤ a) : background a = 0 := List.getD_eq_default _ _ h

/-- Settles O51: the image where it is loaded, and the reset contents outside it, the font and then zeros. -/
theorem resetLoadsFontAndImage : Obligations.ResetLoadsFontAndImage := by
  intro image s hl
  refine ⟨_, if_pos hl, fun d k hd hk => ?_, fun a hlo hhi => ?_, fun k hk => get_imageMem_add hl hk, fun a hlo _ => ?_⟩
  · have hbelow : Memory.get (imageMem image) (5 * d + k) = background (5 * d + k) := get_imageMem_of_outside hl (.inl (by omega))
    rw [hbelow]
    exact background_font ⟨d, hd⟩ ⟨k, hk⟩
  · exact (get_imageMem_of_outside hl (.inl (by omega))).trans (background_eq_zero hlo)
  · exact (get_imageMem_of_outside hl (.inr hlo)).trans (background_eq_zero (by omega))

/-- At the reset `pc` the fetch reads the word at 0x200 (R191). -/
theorem fetchWord_of_resetPc {s : State} (h : s.pc = 0x0200) :
    fetchWord s = some (Memory.get s.mem 0x200 ++ Memory.get s.mem 0x201) := by
  have hpc : s.pc.toNat = 0x200 := by simp [h]
  obtain ⟨-, hf⟩ | ⟨hgt, -⟩ := fetchWord_cases s
  · rw [hf, hpc]; rfl
  · omega

/-- Settles O50: the fields of `State.reset`, and the fetch at its `pc`, where an image of two bytes or more puts its first two. -/
theorem resetLeavesTheInitialConditions : Obligations.ResetLeavesTheInitialConditions := by
  intro image s hl
  refine ⟨_, if_pos hl, rfl, rfl, fun k => Vector.getElem_replicate k.isLt, fun k => BitVec.getLsbD_zero, rfl, rfl, pixel_clearedFb, rfl,
    fun r => Vector.getElem_replicate r.isLt, rfl, rfl, rfl, fetchWord_of_resetPc rfl, fun h => ?_⟩
  have hhi : Memory.get (imageMem image) 0x200 = image[0] := get_imageMem_add hl (k := 0) (by omega)
  have hlo : Memory.get (imageMem image) 0x201 = image[1] := get_imageMem_add hl (k := 1) (by omega)
  rw [fetchWord_of_resetPc rfl, hhi, hlo]

/-- Settles O5: each of the twelve words, decoded by the table. -/
theorem wordsOfTheSpecDecode : Obligations.WordsOfTheSpecDecode := by
  unfold Obligations.WordsOfTheSpecDecode
  decide

end Sys2Proof.Machine
